-- ==== Sys2Proof/Word.lean ====
section
/-! DEFINITION. The word types of LC3VM-CORE (spec 00_scope.md R10, R12). -/

namespace Sys2Proof

/-- A general register, the program counter, an address or a memory word: 16 bits (00_scope.md R10).
`+` on it is the spec's `+16`, addition modulo 65536 (R12). -/
abbrev Word := BitVec 16

/-- A console character, or one half of a word: 8 bits (00_scope.md R10, 44_trap.md R146). -/
abbrev Byte := BitVec 8

/-- The index of a general register, a 3-bit number 0..7 (10_state.md R20, 30_encoding.md R64). -/
abbrev RegIdx := BitVec 3

end Sys2Proof
end

