-- ==== Sys2Proof/Syntax.lean ====
section
/-! DEFINITION. The instructions: one constructor per row of spec/opcode_table.json, carrying the fields of its format
(30_encoding.md R63, R64). Unused bits are no part of an instruction (R67). -/

namespace Sys2Proof

/-- The 25 rows of the opcode table. Immediates and offsets are the raw fields; sign extension is the operand's (R65). -/
inductive Instr where
  /-- ADD, register form: DR, SR1, SR2 (41_alu.md R100). -/
  | add (dr sr1 sr2 : RegIdx)
  /-- ADD, immediate form, the row ADDi: DR, SR1, imm5 (R101). -/
  | addi (dr sr1 : RegIdx) (imm5 : BitVec 5)
  /-- AND, register form: DR, SR1, SR2 (R102). -/
  | and (dr sr1 sr2 : RegIdx)
  /-- AND, immediate form, the row ANDi: DR, SR1, imm5 (R103). -/
  | andi (dr sr1 : RegIdx) (imm5 : BitVec 5)
  /-- NOT: DR, SR (R104). -/
  | not (dr sr : RegIdx)
  /-- BR: the three test bits and offset9 (42_control.md R110). -/
  | br (n z p : Bool) (offset9 : BitVec 9)
  /-- JMP: BaseR; RET is JMP with BaseR = R7 (R112, R113). -/
  | jmp (baseR : RegIdx)
  /-- JSR: off11 (R114). -/
  | jsr (off11 : BitVec 11)
  /-- JSRR: BaseR (R115). -/
  | jsrr (baseR : RegIdx)
  /-- LD: DR, offset9 (43_loadstore.md R121). -/
  | ld (dr : RegIdx) (offset9 : BitVec 9)
  /-- LDI: DR, offset9 (R122). -/
  | ldi (dr : RegIdx) (offset9 : BitVec 9)
  /-- LDR: DR, BaseR, offset6 (R123). -/
  | ldr (dr baseR : RegIdx) (offset6 : BitVec 6)
  /-- LEA: DR, offset9 (R124). -/
  | lea (dr : RegIdx) (offset9 : BitVec 9)
  /-- ST: SR, offset9 (R125). -/
  | st (sr : RegIdx) (offset9 : BitVec 9)
  /-- STI: SR, offset9 (R126). -/
  | sti (sr : RegIdx) (offset9 : BitVec 9)
  /-- STR: SR, BaseR, offset6 (R127). -/
  | str (sr baseR : RegIdx) (offset6 : BitVec 6)
  /-- RTI, a no-op here (45_reserved.md R155). -/
  | rti
  /-- RES, a no-op (R156). -/
  | res
  /-- TRAP x20, GETC (44_trap.md R136). -/
  | getc
  /-- TRAP x21, OUT (R137). -/
  | out
  /-- TRAP x22, PUTS (R138). -/
  | puts
  /-- TRAP x23, IN (R139). -/
  | inTrap
  /-- TRAP x24, PUTSP (R140). -/
  | putsp
  /-- TRAP x25, HALT (R141). -/
  | halt
  /-- TRAP with any other vector (R142). -/
  | trapOther (trapvect8 : Byte)
  deriving DecidableEq, Repr

end Sys2Proof
end

