-- ==== Sys2Proof/WellFormed.lean ====
section
/-! DEFINITION. Which terms of `Instr` some instruction word stands for. Every field's range is its type; the one check is that
the row TRAP_other holds a vector that is none of the six built-in ones (30_encoding.md R71, 44_trap.md R142). -/

namespace Sys2Proof

/-- The vector selects one of the six built-in operations: 0x20 to 0x25 (44_trap.md R135). -/
def isBuiltinVector (v : Byte) : Bool :=
  decide (0x20#8 ≤ v) && decide (v ≤ 0x25#8)

/-- Some instruction word decodes to the term. -/
def Instr.wf (i : Instr) : Bool :=
  match i with
  | .trapOther v => !isBuiltinVector v
  | .add _ _ _ | .addi _ _ _ | .and _ _ _ | .andi _ _ _ | .not _ _ => true
  | .br _ _ _ _ | .jmp _ | .jsr _ | .jsrr _ => true
  | .ld _ _ | .ldi _ _ | .ldr _ _ _ | .lea _ _ | .st _ _ | .sti _ _ | .str _ _ _ => true
  | .rti | .res => true
  | .getc | .out | .puts | .inTrap | .putsp | .halt => true

end Sys2Proof
end

