-- ==== Sys2Proof/Decode.lean ====
section
/-! DEFINITION. From an instruction word to an instruction and back (spec 30_encoding.md). The decoder is total: every one of
the 65536 words is an instruction, so nothing is rejected (R61, R68). The opcode numbers stand in one place, `Opcode.ofBits` and
`Opcode.bits` (R62, the spec's general knowledge GK1; log entry 12). -/

namespace Sys2Proof

/-- The sixteen opcodes (30_encoding.md R62). -/
inductive Opcode where
  | br | add | ld | st | jsr | and | ldr | str | rti | not | ldi | sti | jmp | res | lea | trap
  deriving DecidableEq, Repr

/-- The opcode number, `bits[15:12]` (R62). -/
def Opcode.bits (o : Opcode) : BitVec 4 :=
  match o with
  | .br => 0b0000#4
  | .add => 0b0001#4
  | .ld => 0b0010#4
  | .st => 0b0011#4
  | .jsr => 0b0100#4
  | .and => 0b0101#4
  | .ldr => 0b0110#4
  | .str => 0b0111#4
  | .rti => 0b1000#4
  | .not => 0b1001#4
  | .ldi => 0b1010#4
  | .sti => 0b1011#4
  | .jmp => 0b1100#4
  | .res => 0b1101#4
  | .lea => 0b1110#4
  | .trap => 0b1111#4

/-- The opcode a 4-bit number selects (R62). -/
def Opcode.ofBits (b : BitVec 4) : Opcode :=
  match b.toNat with
  | 0 => .br
  | 1 => .add
  | 2 => .ld
  | 3 => .st
  | 4 => .jsr
  | 5 => .and
  | 6 => .ldr
  | 7 => .str
  | 8 => .rti
  | 9 => .not
  | 10 => .ldi
  | 11 => .sti
  | 12 => .jmp
  | 13 => .res
  | 14 => .lea
  | _ => .trap

/-! ### The fields (R64) -/

/-- The opcode of a word, from `bits[15:12]` (R61). -/
def opcodeOf (w : Word) : Opcode := Opcode.ofBits (w.extractLsb' 12 4)

/-- `bits[11:9]`: DR, or SR of ST, STI and STR (R64). A full 3-bit field, LDR's too (conflict C3). -/
def field11to9 (w : Word) : RegIdx := w.extractLsb' 9 3

/-- `bits[8:6]`: SR1, SR of NOT, or BaseR (R64). -/
def field8to6 (w : Word) : RegIdx := w.extractLsb' 6 3

/-- `bits[2:0]`: SR2 (R64). -/
def field2to0 (w : Word) : RegIdx := w.extractLsb' 0 3

/-- `bits[4:0]`: imm5 (R64). -/
def fieldImm5 (w : Word) : BitVec 5 := w.extractLsb' 0 5

/-- `bits[5:0]`: offset6 (R64). -/
def fieldOffset6 (w : Word) : BitVec 6 := w.extractLsb' 0 6

/-- `bits[8:0]`: offset9 (R64). -/
def fieldOffset9 (w : Word) : BitVec 9 := w.extractLsb' 0 9

/-- `bits[10:0]`: off11 (R64). -/
def fieldOff11 (w : Word) : BitVec 11 := w.extractLsb' 0 11

/-- `bits[7:0]`: trapvect8 (R64). -/
def fieldTrapvect8 (w : Word) : Byte := w.extractLsb' 0 8

/-! ### Decoding -/

/-- The trap vector dispatch: six recognised vectors, any other is TRAP_other (44_trap.md R135, 30_encoding.md R71). -/
def decodeTrap (v : Byte) : Instr :=
  if v = 0x20#8 then .getc
  else if v = 0x21#8 then .out
  else if v = 0x22#8 then .puts
  else if v = 0x23#8 then .inTrap
  else if v = 0x24#8 then .putsp
  else if v = 0x25#8 then .halt
  else .trapOther v

/-- `decode(word)`: the opcode selects the format, each format takes its own fields and no other bit is looked at
(30_encoding.md R61, R63, R67). -/
def decode (w : Word) : Instr :=
  match opcodeOf w with
  | .br => .br (w.getLsbD 11) (w.getLsbD 10) (w.getLsbD 9) (fieldOffset9 w)
  | .add => if w.getLsbD 5 then .addi (field11to9 w) (field8to6 w) (fieldImm5 w)
            else .add (field11to9 w) (field8to6 w) (field2to0 w)
  | .ld => .ld (field11to9 w) (fieldOffset9 w)
  | .st => .st (field11to9 w) (fieldOffset9 w)
  | .jsr => if w.getLsbD 11 then .jsr (fieldOff11 w) else .jsrr (field8to6 w)
  | .and => if w.getLsbD 5 then .andi (field11to9 w) (field8to6 w) (fieldImm5 w)
            else .and (field11to9 w) (field8to6 w) (field2to0 w)
  | .ldr => .ldr (field11to9 w) (field8to6 w) (fieldOffset6 w)
  | .str => .str (field11to9 w) (field8to6 w) (fieldOffset6 w)
  | .rti => .rti
  | .not => .not (field11to9 w) (field8to6 w)
  | .ldi => .ldi (field11to9 w) (fieldOffset9 w)
  | .sti => .sti (field11to9 w) (fieldOffset9 w)
  | .jmp => .jmp (field8to6 w)
  | .res => .res
  | .lea => .lea (field11to9 w) (fieldOffset9 w)
  | .trap => decodeTrap (fieldTrapvect8 w)

/-! ### Encoding -/

/-- A field's value at its place in a word: its least significant bit at bit `lo` (30_encoding.md R64). -/
def place {n : Nat} (v : BitVec n) (lo : Nat) : Word := v.setWidth 16 <<< lo

/-- An opcode number in `bits[15:12]` (R61). -/
def Opcode.word (o : Opcode) : Word := place o.bits 12

/-- The word of an instruction: opcode and fields at the places its format gives them (30_encoding.md R63, R64). Unused bits are
zeros, but for NOT, whose `bits[5:0]` are ones, as the spec writes them (R72; log entry 13). -/
def encode (i : Instr) : Word :=
  match i with
  | .add dr sr1 sr2 => Opcode.add.word ||| place dr 9 ||| place sr1 6 ||| place sr2 0
  | .addi dr sr1 imm5 => Opcode.add.word ||| place dr 9 ||| place sr1 6 ||| place 1#1 5 ||| place imm5 0
  | .and dr sr1 sr2 => Opcode.and.word ||| place dr 9 ||| place sr1 6 ||| place sr2 0
  | .andi dr sr1 imm5 => Opcode.and.word ||| place dr 9 ||| place sr1 6 ||| place 1#1 5 ||| place imm5 0
  | .not dr sr => Opcode.not.word ||| place dr 9 ||| place sr 6 ||| place 0b111111#6 0
  | .br n z p offset9 =>
    Opcode.br.word ||| place (BitVec.ofBool n) 11 ||| place (BitVec.ofBool z) 10 ||| place (BitVec.ofBool p) 9
      ||| place offset9 0
  | .jmp baseR => Opcode.jmp.word ||| place baseR 6
  | .jsr off11 => Opcode.jsr.word ||| place 1#1 11 ||| place off11 0
  | .jsrr baseR => Opcode.jsr.word ||| place baseR 6
  | .ld dr offset9 => Opcode.ld.word ||| place dr 9 ||| place offset9 0
  | .ldi dr offset9 => Opcode.ldi.word ||| place dr 9 ||| place offset9 0
  | .ldr dr baseR offset6 => Opcode.ldr.word ||| place dr 9 ||| place baseR 6 ||| place offset6 0
  | .lea dr offset9 => Opcode.lea.word ||| place dr 9 ||| place offset9 0
  | .st sr offset9 => Opcode.st.word ||| place sr 9 ||| place offset9 0
  | .sti sr offset9 => Opcode.sti.word ||| place sr 9 ||| place offset9 0
  | .str sr baseR offset6 => Opcode.str.word ||| place sr 9 ||| place baseR 6 ||| place offset6 0
  | .rti => Opcode.rti.word
  | .res => Opcode.res.word
  | .getc => Opcode.trap.word ||| place 0x20#8 0
  | .out => Opcode.trap.word ||| place 0x21#8 0
  | .puts => Opcode.trap.word ||| place 0x22#8 0
  | .inTrap => Opcode.trap.word ||| place 0x23#8 0
  | .putsp => Opcode.trap.word ||| place 0x24#8 0
  | .halt => Opcode.trap.word ||| place 0x25#8 0
  | .trapOther v => Opcode.trap.word ||| place v 0

/-! ### The opcode table's rows (R71) -/

/-- A row of spec/opcode_table.json: it applies to `w` when `w &&& mask = pattern` (R71). -/
structure Row where
  mnemonic : String
  pattern : Word
  mask : Word
  deriving DecidableEq, Repr

/-- The row applies to the word (R71). -/
def Row.applies (r : Row) (w : Word) : Bool := w &&& r.mask == r.pattern

/-- The row of an instruction, its `match` and `mask` as the table has them. -/
def Instr.row (i : Instr) : Row :=
  match i with
  | .add _ _ _ => ⟨"ADD", 0x1000#16, 0xF020#16⟩
  | .addi _ _ _ => ⟨"ADDi", 0x1020#16, 0xF020#16⟩
  | .and _ _ _ => ⟨"AND", 0x5000#16, 0xF020#16⟩
  | .andi _ _ _ => ⟨"ANDi", 0x5020#16, 0xF020#16⟩
  | .not _ _ => ⟨"NOT", 0x9000#16, 0xF000#16⟩
  | .br _ _ _ _ => ⟨"BR", 0x0000#16, 0xF000#16⟩
  | .jmp _ => ⟨"JMP", 0xC000#16, 0xF000#16⟩
  | .jsr _ => ⟨"JSR", 0x4800#16, 0xF800#16⟩
  | .jsrr _ => ⟨"JSRR", 0x4000#16, 0xF800#16⟩
  | .ld _ _ => ⟨"LD", 0x2000#16, 0xF000#16⟩
  | .ldi _ _ => ⟨"LDI", 0xA000#16, 0xF000#16⟩
  | .ldr _ _ _ => ⟨"LDR", 0x6000#16, 0xF000#16⟩
  | .lea _ _ => ⟨"LEA", 0xE000#16, 0xF000#16⟩
  | .st _ _ => ⟨"ST", 0x3000#16, 0xF000#16⟩
  | .sti _ _ => ⟨"STI", 0xB000#16, 0xF000#16⟩
  | .str _ _ _ => ⟨"STR", 0x7000#16, 0xF000#16⟩
  | .rti => ⟨"RTI", 0x8000#16, 0xF000#16⟩
  | .res => ⟨"RES", 0xD000#16, 0xF000#16⟩
  | .getc => ⟨"GETC", 0xF020#16, 0xF0FF#16⟩
  | .out => ⟨"OUT", 0xF021#16, 0xF0FF#16⟩
  | .puts => ⟨"PUTS", 0xF022#16, 0xF0FF#16⟩
  | .inTrap => ⟨"IN", 0xF023#16, 0xF0FF#16⟩
  | .putsp => ⟨"PUTSP", 0xF024#16, 0xF0FF#16⟩
  | .halt => ⟨"HALT", 0xF025#16, 0xF0FF#16⟩
  | .trapOther _ => ⟨"TRAP_other", 0xF000#16, 0xF000#16⟩

/-- The rows in the table's order, ALU, control, memory and reserved opcodes. -/
def opcodeRows : List Row :=
  [⟨"ADD", 0x1000#16, 0xF020#16⟩, ⟨"ADDi", 0x1020#16, 0xF020#16⟩, ⟨"AND", 0x5000#16, 0xF020#16⟩, ⟨"ANDi", 0x5020#16, 0xF020#16⟩,
   ⟨"NOT", 0x9000#16, 0xF000#16⟩, ⟨"BR", 0x0000#16, 0xF000#16⟩, ⟨"JMP", 0xC000#16, 0xF000#16⟩, ⟨"JSR", 0x4800#16, 0xF800#16⟩,
   ⟨"JSRR", 0x4000#16, 0xF800#16⟩] ++
  [⟨"LD", 0x2000#16, 0xF000#16⟩, ⟨"LDI", 0xA000#16, 0xF000#16⟩, ⟨"LDR", 0x6000#16, 0xF000#16⟩, ⟨"LEA", 0xE000#16, 0xF000#16⟩,
   ⟨"ST", 0x3000#16, 0xF000#16⟩, ⟨"STI", 0xB000#16, 0xF000#16⟩, ⟨"STR", 0x7000#16, 0xF000#16⟩, ⟨"RTI", 0x8000#16, 0xF000#16⟩,
   ⟨"RES", 0xD000#16, 0xF000#16⟩]

/-- The seven rows of opcode TRAP; the catch-all row stands last, so the more specific row is met first (R71). -/
def trapRows : List Row :=
  [⟨"GETC", 0xF020#16, 0xF0FF#16⟩, ⟨"OUT", 0xF021#16, 0xF0FF#16⟩, ⟨"PUTS", 0xF022#16, 0xF0FF#16⟩, ⟨"IN", 0xF023#16, 0xF0FF#16⟩,
   ⟨"PUTSP", 0xF024#16, 0xF0FF#16⟩, ⟨"HALT", 0xF025#16, 0xF0FF#16⟩, ⟨"TRAP_other", 0xF000#16, 0xF000#16⟩]

/-- All 25 rows of spec/opcode_table.json, in its order. -/
def opcodeTable : List Row := opcodeRows ++ trapRows

/-- The bits of an instruction's format that no executor looks at (R63, R67): every format's "unused" bits. -/
def Instr.unused (i : Instr) : Word :=
  match i with
  | .add _ _ _ | .and _ _ _ => 0x0018#16
  | .not _ _ => 0x003F#16
  | .jmp _ => 0x0E3F#16
  | .jsrr _ => 0x063F#16
  | .rti | .res => 0x0FFF#16
  | .getc | .out | .puts | .inTrap | .putsp | .halt | .trapOther _ => 0x0F00#16
  | .addi _ _ _ | .andi _ _ _ | .br _ _ _ _ | .jsr _ => 0x0000#16
  | .ld _ _ | .ldi _ _ | .ldr _ _ _ | .lea _ _ | .st _ _ | .sti _ _ | .str _ _ _ => 0x0000#16

/-! ### The host's view of an instruction's bits -/

/-- The instruction word whose low `nbits` bits are those of `w`, the bits above them zero. -/
def tableWord (nbits w : Nat) : Word := BitVec.ofNat 16 (w % 2 ^ nbits)

/-- What the decoder reads from an instruction of `nbits` bits `w`. An instruction is one 16-bit word (R60), so a longer one
is none. -/
def decodeTableWord (nbits w : Nat) : Option Instr :=
  if nbits ≤ 16 then some (decode (tableWord nbits w)) else none

end Sys2Proof
end

