-- ==== Sys2Proof/Config.lean ====
section
/-! DEFINITION. What an implementation fixes and the spec leaves open (00_scope.md R11): constants with no body, so that a
theorem about the model holds for every value of them. -/

namespace Sys2Proof.Config

/-- INIT_MEM: the content of a memory word that neither the loader nor a store has written (00_scope.md R11, 10_state.md R33;
log entry 2). -/
opaque initMem : Word → Word

/-- PROMPT: what trap IN prints before it reads (00_scope.md R11, 44_trap.md R139; log entry 3). -/
opaque prompt : List Byte

/-- HALT_NOTICE: what trap HALT prints (00_scope.md R11, 44_trap.md R141; log entry 3). -/
opaque haltNotice : List Byte

end Sys2Proof.Config
end

