-- ==== Sys2Proof/Machine/State.lean ====
section
/-! DEFINITION. The architectural state of LC3VM-CORE and the console streams, whole (spec 10_state.md), the reasons a step can
stop, and the state after reset. -/

namespace Sys2Proof.Machine

/-- Memory as the words that the loader or a store has written, by word address. The word is the smallest unit the spec
addresses (20_memory.md R40, R43; log entry 1); an address with no entry reads as `Config.initMem` (R41; log entry 2). -/
abbrev Memory := List (Nat × Word)

/-- The canonical form: addresses strictly rising and inside the 65536 words of the space (10_state.md R28). -/
abbrev Memory.wf (m : Memory) : Prop :=
  m.Pairwise (fun c d => c.1 < d.1) ∧ ∀ c ∈ m, c.1 < 65536

/-- Everything the spec gives the machine (10_state.md, opening paragraph). -/
structure State where
  /-- R0 to R7 (10_state.md R20). -/
  regs : Vector Word 8
  /-- The address of the next instruction to fetch (R22, R23). -/
  pc : Word
  /-- COND: bit 2 NEGATIVE, bit 1 ZERO, bit 0 POSITIVE (R24). -/
  cond : BitVec 3
  /-- The Running State: true RUNNING, false HALTED (R29). -/
  run : Bool
  /-- The memory array (R28). -/
  mem : Memory
  /-- CONOUT: the characters emitted since reset, oldest first (R30). -/
  conout : List Byte
  /-- CONIN: the characters supplied by the host and not yet consumed, oldest first (R30). -/
  conin : List Byte
  deriving DecidableEq, Repr

/-- Why a step gives no next state. None of these is an exception of the hardware, which has none (60_exceptions.md R160). -/
inductive Fault where
  /-- Raised by `step` alone, in a state with `run = 0`: there is no step, the run has ended (40_instruction_cycle.md R97,
  R98; log entry 6). Safe: the machine takes no step there either. -/
  | halted
  /-- Raised by PUTS and PUTSP alone, when no word of memory is zero: the trap never completes (44_trap.md R147, R98;
  log entry 7). Safe: the machine reaches no next state there either. -/
  | endlessString
  deriving DecidableEq, Repr

/-- Why an instruction has no meaning. No meaning of this model refuses. -/
inductive Refusal where
  /-- Raised by an arm of `exec` for an instruction not modelled yet: there is none left. Safe. -/
  | notModelled (mnemonic : String)
  deriving DecidableEq, Repr

/-- The state after reset (10_state.md R33, 70_reset_and_hazards.md R185): memory with nothing written, no input supplied
(log entry 8). -/
def State.reset : State where
  regs := Vector.replicate 8 0x0000#16
  pc := 0x3000#16
  cond := 0b000#3
  run := true
  mem := []
  conout := []
  conin := []

end Sys2Proof.Machine
end

