-- ==== Sys2Proof/Machine/Ops.lean ====
section
/-! DEFINITION. The named operations over registers, memory and the console (spec 00_scope.md R14 to R16). There is no operation
that takes an exception and none that returns from one: the hardware raises no exception (60_exceptions.md R160), TRAP is an
inline operation that saves nothing and transfers nowhere (R164), and RTI is a no-op (R165). -/

namespace Sys2Proof.Machine

/-! ### Registers -/

/-- `x[i]`: reads a general register (00_scope.md R15). -/
def State.reg (s : State) (r : RegIdx) : Word :=
  s.regs[r.toNat]'r.isLt

/-- `x[i] <- v`: writes a general register; none is hard-wired (R15, 10_state.md R20). -/
def State.setReg (s : State) (r : RegIdx) (v : Word) : State :=
  { s with regs := s.regs.set r.toNat v r.isLt }

/-- `pc <- target` (R15). -/
def State.setPc (s : State) (target : Word) : State :=
  { s with pc := target }

/-- `pc <- pc +16 1`, after the fetch and before the execution of every instruction (40_instruction_cycle.md R92). -/
def State.advance (s : State) : State :=
  s.setPc (s.pc + 1#16)

/-- `run <- 0` (44_trap.md R141). -/
def State.halt (s : State) : State :=
  { s with run := false }

/-! ### Memory -/

/-- The word written at an address, if one was. -/
def Memory.find? (m : Memory) (a : Nat) : Option Word :=
  match m with
  | [] => none
  | (b, w) :: rest => if a = b then some w else Memory.find? rest a

/-- Puts a word at an address, in order, in the place of the one that stood there. -/
def Memory.insert (m : Memory) (a : Nat) (v : Word) : Memory :=
  match m with
  | [] => [(a, v)]
  | (b, w) :: rest =>
    if a < b then (a, v) :: (b, w) :: rest
    else if a = b then (a, v) :: rest
    else (b, w) :: Memory.insert rest a v

/-- `MemRead(addr, 1)`: the latest word written there, else INIT_MEM of the address; total (20_memory.md R41). -/
def Memory.read (m : Memory) (a : Word) : Word :=
  (m.find? a.toNat).getD (Config.initMem a)

/-- `MemWrite(addr, 1, v)`: total (20_memory.md R41). -/
def Memory.write (m : Memory) (a v : Word) : Memory :=
  m.insert a.toNat v

/-- Memory write on the state (00_scope.md R15). -/
def State.store (s : State) (a v : Word) : State :=
  { s with mem := s.mem.write a v }

/-- The fetch: `MemRead(pc, 1)` (40_instruction_cycle.md R91). -/
def State.fetch (s : State) : Word :=
  s.mem.read s.pc

/-- The words from `a` upward (wrapping) before the first zero word, looking at no more than `n` words; `none` when all `n` are
non-zero (44_trap.md R138, R140, R147). -/
def Memory.scan (m : Memory) (n : Nat) (a : Word) : Option (List Word) :=
  match n with
  | 0 => none
  | k + 1 =>
    if m.read a = 0x0000#16 then some []
    else (Memory.scan m k (a + 1#16)).map (fun ws => m.read a :: ws)

/-- The string PUTS and PUTSP scan. After 65536 words the scan is back where it began and will never end (R147). -/
def State.stringAt (s : State) (a : Word) : Option (List Word) :=
  s.mem.scan 65536 a

/-! ### Bytes of a word (20_memory.md R43) -/

/-- `w[7:0]`. -/
def lowByte (w : Word) : Byte := w.extractLsb' 0 8

/-- `w[15:8]`. -/
def highByte (w : Word) : Byte := w.extractLsb' 8 8

/-- The word `{high, low}`. -/
def joinBytes (high low : Byte) : Word := high.setWidth 16 <<< 8 ||| low.setWidth 16

/-- What PUTSP emits of a non-zero word: the low byte always, then the high byte unless it is zero (44_trap.md R140). -/
def packedChars (w : Word) : List Byte :=
  if highByte w = 0x00#8 then [lowByte w] else [lowByte w, highByte w]

/-! ### Console (00_scope.md R16) -/

/-- `ConOut` of each character in order: CONOUT is append-only (10_state.md R30). -/
def State.emit (s : State) (cs : List Byte) : State :=
  { s with conout := s.conout ++ cs }

/-- `ConFlush()`: changes no state (R16, 44_trap.md R145). -/
def State.conFlush (s : State) : State := s

/-- CONIN with the characters `cs` left in it. -/
def State.setConin (s : State) (cs : List Byte) : State :=
  { s with conin := cs }

/-- `ConIn()`: removes and returns the first character of CONIN; `none` when it is empty, and the step that calls it is then
held (R16, 40_instruction_cycle.md R99). -/
def State.conRead (s : State) : Option (Byte × State) :=
  match s.conin with
  | [] => none
  | c :: rest => some (c, s.setConin rest)

end Sys2Proof.Machine
end

