-- ==== Sys2Proof/Machine/Flags.lean ====
section
/-! DEFINITION. The condition-flag updater, and BR's test (spec 10_state.md R24 to R27, 42_control.md R110). -/

namespace Sys2Proof.Machine

/-- NEGATIVE, ZERO and POSITIVE as values of COND (10_state.md R24). -/
def condN : BitVec 3 := 0b100#3
def condZ : BitVec 3 := 0b010#3
def condP : BitVec 3 := 0b001#3

/-- The value `setcc(v)` gives COND (R26). -/
def ccOf (v : Word) : BitVec 3 :=
  if v = 0x0000#16 then condZ
  else if v.getLsbD 15 then condN
  else condP

/-- `setcc(v)` (R26). -/
def State.setcc (s : State) (v : Word) : State :=
  { s with cond := ccOf v }

/-- The end of each of the seven flag-affecting instructions: `x[DR] <- v`, then `setcc(v)` (R27, 40_instruction_cycle.md R94,
41_alu.md R108). -/
def State.writeResult (s : State) (dr : RegIdx) (v : Word) : State :=
  (s.setReg dr v).setcc v

/-- BR's condition: some test bit matches a set flag (42_control.md R110). -/
def State.taken (s : State) (n z p : Bool) : Bool :=
  (n && s.cond.getLsbD 2) || (z && s.cond.getLsbD 1) || (p && s.cond.getLsbD 0)

end Sys2Proof.Machine
end

