-- ==== Sys2Proof/Machine/Operands.lean ====
section
/-! DEFINITION. Sign and zero extension (spec 00_scope.md R13, R14) and every operand form (30_encoding.md R66, 43_loadstore.md
R120). The state an operand is read in is the one after the pc's increment (40_instruction_cycle.md R92). -/

namespace Sys2Proof.Machine

/-- `sext_N(v)`: the N-bit field read as a two's-complement number, in 16 bits (00_scope.md R13). -/
def sext {n : Nat} (v : BitVec n) : Word := v.signExtend 16

/-- `zext_8(c)` (00_scope.md R14). -/
def zext8 (c : Byte) : Word := c.setWidth 16

/-- Form (b), the immediate of ADD and AND: `sext_5(imm5)` (R66). -/
def immOperand (imm5 : BitVec 5) : Word := sext imm5

/-- Form (c), a PC-relative address by offset9: `pc +16 sext_9(offset9)` (R66, R120). -/
def State.pcRel9 (s : State) (offset9 : BitVec 9) : Word := s.pc + sext offset9

/-- Form (c), a PC-relative address by off11: `pc +16 sext_11(off11)` (R66). -/
def State.pcRel11 (s : State) (off11 : BitVec 11) : Word := s.pc + sext off11

/-- Form (d), base plus offset: `x[BaseR] +16 sext_6(offset6)` (R66, R120). -/
def State.baseOff6 (s : State) (baseR : RegIdx) (offset6 : BitVec 6) : Word := s.reg baseR + sext offset6

/-- Form (f), memory-indirect: the word at a PC-relative address used as the address (R66, R120). -/
def State.indirect9 (s : State) (offset9 : BitVec 9) : Word := s.mem.read (s.pcRel9 offset9)

end Sys2Proof.Machine
end

