-- ==== Sys2Proof/Machine/Alu.lean ====
section
/-! DEFINITION. ADD, AND and NOT (spec 41_alu.md). -/

namespace Sys2Proof.Machine

/-- ADD, register form (41_alu.md R100). -/
def execAdd (dr sr1 sr2 : RegIdx) (s : State) : Host.Outcome State Fault Refusal :=
  let s1 := s.advance
  .next (s1.writeResult dr (s1.reg sr1 + s1.reg sr2))

/-- ADD, immediate form (R101). -/
def execAddi (dr sr1 : RegIdx) (imm5 : BitVec 5) (s : State) : Host.Outcome State Fault Refusal :=
  let s1 := s.advance
  .next (s1.writeResult dr (s1.reg sr1 + immOperand imm5))

/-- AND, register form (R102). -/
def execAnd (dr sr1 sr2 : RegIdx) (s : State) : Host.Outcome State Fault Refusal :=
  let s1 := s.advance
  .next (s1.writeResult dr (s1.reg sr1 &&& s1.reg sr2))

/-- AND, immediate form (R103). -/
def execAndi (dr sr1 : RegIdx) (imm5 : BitVec 5) (s : State) : Host.Outcome State Fault Refusal :=
  let s1 := s.advance
  .next (s1.writeResult dr (s1.reg sr1 &&& immOperand imm5))

/-- NOT (R104). -/
def execNot (dr sr : RegIdx) (s : State) : Host.Outcome State Fault Refusal :=
  let s1 := s.advance
  .next (s1.writeResult dr (~~~ s1.reg sr))

end Sys2Proof.Machine
end

