-- ==== Sys2Proof/Machine/Control.lean ====
section
/-! DEFINITION. BR, JMP, JSR and JSRR (spec 42_control.md). -/

namespace Sys2Proof.Machine

/-- BR (42_control.md R110). -/
def execBr (n z p : Bool) (offset9 : BitVec 9) (s : State) : Host.Outcome State Fault Refusal :=
  let s1 := s.advance
  if s1.taken n z p then .next (s1.setPc (s1.pcRel9 offset9)) else .next s1

/-- JMP, and RET with it (R112, R113). -/
def execJmp (baseR : RegIdx) (s : State) : Host.Outcome State Fault Refusal :=
  let s1 := s.advance
  .next (s1.setPc (s1.reg baseR))

/-- JSR (R114). -/
def execJsr (off11 : BitVec 11) (s : State) : Host.Outcome State Fault Refusal :=
  let s1 := s.advance
  .next ((s1.setReg 7#3 s1.pc).setPc (s1.pcRel11 off11))

/-- JSRR: R7 is written first, and the target is read from the register file after it, so `JSRR R7` goes to the next
instruction (R115, the spec's decision D6). -/
def execJsrr (baseR : RegIdx) (s : State) : Host.Outcome State Fault Refusal :=
  let s1 := s.advance
  let s2 := s1.setReg 7#3 s1.pc
  .next (s2.setPc (s2.reg baseR))

end Sys2Proof.Machine
end

