-- ==== Sys2Proof/Machine/LoadStore.lean ====
section
/-! DEFINITION. LD, LDI, LDR, LEA, ST, STI and STR (spec 43_loadstore.md). -/

namespace Sys2Proof.Machine

/-- LD (43_loadstore.md R121). -/
def execLd (dr : RegIdx) (offset9 : BitVec 9) (s : State) : Host.Outcome State Fault Refusal :=
  let s1 := s.advance
  .next (s1.writeResult dr (s1.mem.read (s1.pcRel9 offset9)))

/-- LDI: the pointer, then the data at it (R122). -/
def execLdi (dr : RegIdx) (offset9 : BitVec 9) (s : State) : Host.Outcome State Fault Refusal :=
  let s1 := s.advance
  .next (s1.writeResult dr (s1.mem.read (s1.indirect9 offset9)))

/-- LDR (R123). -/
def execLdr (dr baseR : RegIdx) (offset6 : BitVec 6) (s : State) : Host.Outcome State Fault Refusal :=
  let s1 := s.advance
  .next (s1.writeResult dr (s1.mem.read (s1.baseOff6 baseR offset6)))

/-- LEA: the address itself, no memory access (R124). -/
def execLea (dr : RegIdx) (offset9 : BitVec 9) (s : State) : Host.Outcome State Fault Refusal :=
  let s1 := s.advance
  .next (s1.writeResult dr (s1.pcRel9 offset9))

/-- ST (R125). -/
def execSt (sr : RegIdx) (offset9 : BitVec 9) (s : State) : Host.Outcome State Fault Refusal :=
  let s1 := s.advance
  .next (s1.store (s1.pcRel9 offset9) (s1.reg sr))

/-- STI: the pointer is read, then the word is written at it (R126). -/
def execSti (sr : RegIdx) (offset9 : BitVec 9) (s : State) : Host.Outcome State Fault Refusal :=
  let s1 := s.advance
  .next (s1.store (s1.indirect9 offset9) (s1.reg sr))

/-- STR (R127). -/
def execStr (sr baseR : RegIdx) (offset6 : BitVec 6) (s : State) : Host.Outcome State Fault Refusal :=
  let s1 := s.advance
  .next (s1.store (s1.baseOff6 baseR offset6) (s1.reg sr))

end Sys2Proof.Machine
end

