-- ==== Sys2Proof/Machine/Reserved.lean ====
section
/-! DEFINITION. The reserved opcodes RTI and RES: silent no-ops (spec 45_reserved.md R155 to R157). -/

namespace Sys2Proof.Machine

/-- RTI returns from nothing and restores nothing (45_reserved.md R155). -/
def execRti (s : State) : Host.Outcome State Fault Refusal :=
  .next s.advance

/-- RES (R156). -/
def execRes (s : State) : Host.Outcome State Fault Refusal :=
  .next s.advance

end Sys2Proof.Machine
end

