-- ==== Sys2Proof/Machine/Trap.lean ====
section
/-! DEFINITION. The six built-in trap operations and TRAP with any other vector (spec 44_trap.md). A trap is inline: it writes
neither R7 nor COND nor memory, and the pc only advances (R143, R144). -/

namespace Sys2Proof.Machine

/-- GETC: held, with nothing changed, while CONIN is empty (44_trap.md R136, 40_instruction_cycle.md R99; log entry 5). -/
def execGetc (s : State) : Host.Outcome State Fault Refusal :=
  match s.advance.conRead with
  | none => .next s
  | some (c, s1) => .next (s1.setReg 0#3 (zext8 c))

/-- OUT (R137). -/
def execOut (s : State) : Host.Outcome State Fault Refusal :=
  let s1 := s.advance
  .next (s1.emit [lowByte (s1.reg 0#3)]).conFlush

/-- PUTS: one character a word, its low byte (R138); in a memory with no zero word it never completes (R147). -/
def execPuts (s : State) : Host.Outcome State Fault Refusal :=
  let s1 := s.advance
  match s1.stringAt (s1.reg 0#3) with
  | none => .fault .endlessString
  | some ws => .next (s1.emit (ws.map lowByte)).conFlush

/-- IN: the prompt, a character, its echo, R0; held, with nothing changed, while CONIN is empty (R139, R99; log entry 5). -/
def execInTrap (s : State) : Host.Outcome State Fault Refusal :=
  match (s.advance.emit Config.prompt).conRead with
  | none => .next s
  | some (c, s1) => .next ((s1.emit [c]).setReg 0#3 (zext8 c)).conFlush

/-- PUTSP: two packed characters a word (R140); in a memory with no zero word it never completes (R147). -/
def execPutsp (s : State) : Host.Outcome State Fault Refusal :=
  let s1 := s.advance
  match s1.stringAt (s1.reg 0#3) with
  | none => .fault .endlessString
  | some ws => .next (s1.emit (ws.flatMap packedChars)).conFlush

/-- HALT (R141). -/
def execHalt (s : State) : Host.Outcome State Fault Refusal :=
  .next (s.advance.emit Config.haltNotice).conFlush.halt

/-- TRAP with an unrecognised vector: nothing, whatever the vector (R142). -/
def execTrapOther (_trapvect8 : Byte) (s : State) : Host.Outcome State Fault Refusal :=
  .next s.advance

end Sys2Proof.Machine
end

