-- ==== Sys2Proof/Machine/Dispatch.lean ====
section
/-! DEFINITION. The dispatch of a decoded instruction to its meaning, one arm per constructor (spec 40_instruction_cycle.md R93).
`exec i s` is the whole step of instruction `i` fetched in state `s`, the pc's increment (R92) included. -/

namespace Sys2Proof.Machine

def exec (i : Instr) (s : State) : Host.Outcome State Fault Refusal :=
  match i with
  | .add dr sr1 sr2 => Sys2Proof.Machine.execAdd dr sr1 sr2 s
  | .addi dr sr1 imm5 => Sys2Proof.Machine.execAddi dr sr1 imm5 s
  | .and dr sr1 sr2 => Sys2Proof.Machine.execAnd dr sr1 sr2 s
  | .andi dr sr1 imm5 => Sys2Proof.Machine.execAndi dr sr1 imm5 s
  | .not dr sr => Sys2Proof.Machine.execNot dr sr s
  | .br n z p offset9 => Sys2Proof.Machine.execBr n z p offset9 s
  | .jmp baseR => Sys2Proof.Machine.execJmp baseR s
  | .jsr off11 => Sys2Proof.Machine.execJsr off11 s
  | .jsrr baseR => Sys2Proof.Machine.execJsrr baseR s
  | .ld dr offset9 => Sys2Proof.Machine.execLd dr offset9 s
  | .ldi dr offset9 => Sys2Proof.Machine.execLdi dr offset9 s
  | .ldr dr baseR offset6 => Sys2Proof.Machine.execLdr dr baseR offset6 s
  | .lea dr offset9 => Sys2Proof.Machine.execLea dr offset9 s
  | .st sr offset9 => Sys2Proof.Machine.execSt sr offset9 s
  | .sti sr offset9 => Sys2Proof.Machine.execSti sr offset9 s
  | .str sr baseR offset6 => Sys2Proof.Machine.execStr sr baseR offset6 s
  | .rti => Sys2Proof.Machine.execRti s
  | .res => Sys2Proof.Machine.execRes s
  | .getc => Sys2Proof.Machine.execGetc s
  | .out => Sys2Proof.Machine.execOut s
  | .puts => Sys2Proof.Machine.execPuts s
  | .inTrap => Sys2Proof.Machine.execInTrap s
  | .putsp => Sys2Proof.Machine.execPutsp s
  | .halt => Sys2Proof.Machine.execHalt s
  | .trapOther trapvect8 => Sys2Proof.Machine.execTrapOther trapvect8 s

end Sys2Proof.Machine
end

