-- ==== Sys2Proof/Machine/Step.lean ====
section
/-! DEFINITION. One step of the core (spec 40_instruction_cycle.md R90), and where the host places an instruction for it. -/

namespace Sys2Proof.Machine

/-- Fetch, decode, execute, defined when `run = 1` (R90); a halted machine has no step (R97; log entry 6). The pc's increment is
the first act of every meaning (R92; log entry 11). -/
def step (s : State) : Host.Outcome State Fault Refusal :=
  if s.run then exec (decode s.fetch) s else .fault .halted

/-- The state with the instruction of `nbits` bits `w` at the address the next step fetches from, and the machine running
(log entry 10). -/
def State.withFetchWord (s : State) (nbits w : Nat) : State :=
  { s.store s.pc (tableWord nbits w) with run := true }

end Sys2Proof.Machine
end

