-- ==== Sys2Proof/Machine/Boot.lean ====
section
/-! DEFINITION. What the host does to the machine outside a step (spec 70_reset_and_hazards.md R185 to R194, R200): the image
loader's contract with its failure, launch, reset again, and console input. Killing the process, the command line and exit codes are outside the
core (R200, R201). -/

namespace Sys2Proof.Machine

/-- `swap_byte_order(w)` (R189). The loader's net effect is that the first byte of a pair becomes the high byte. -/
def swapByteOrder (w : Word) : Word := joinBytes (lowByte w) (highByte w)

/-- A word of the image file: `first` is the byte at the lower file offset, the high byte (20_memory.md R43, R188). -/
def imageWord (first second : Byte) : Word := joinBytes first second

/-- Content words into memory from address `a` upward, until the stream or the address space ends; an odd trailing byte is
ignored and no address wraps (R188, R190; the spec's decision D27). -/
def loadWords (m : Memory) (a : Nat) (bytes : List Byte) : Memory :=
  match bytes with
  | first :: second :: rest =>
    if a < 65536 then loadWords (m.insert a (imageWord first second)) (a + 1) rest else m
  | [_] => m
  | [] => m

/-- One image: the origin word, then the content (R188). A stream too short to hold an origin writes nothing
(log entry 9). -/
def loadImage (m : Memory) (bytes : List Byte) : Memory :=
  match bytes with
  | first :: second :: rest => loadWords m (imageWord first second).toNat rest
  | [_] => m
  | [] => m

/-- Several images in order into the same memory; a later one overwrites (R191). -/
def loadImages (m : Memory) (images : List (List Byte)) : Memory :=
  images.foldl loadImage m

/-- What the loader reports to its caller about a file (R192). -/
inductive LoadReport where
  /-- The file was opened and its words written. -/
  | loaded
  /-- The file could not be opened. -/
  | failed
  deriving DecidableEq, Repr

/-- One image file: the bytes of a file that was opened, `none` for one that cannot be, whose failure is reported and whose
loading changes nothing (R192). -/
def loadFile (m : Memory) (file : Option (List Byte)) : LoadReport × Memory :=
  match file with
  | some bytes => (.loaded, loadImage m bytes)
  | none => (.failed, m)

/-- Several image files in order into the same memory (R191); the first failure ends the loading (R192; log entry 16). -/
def loadFiles (m : Memory) (files : List (Option (List Byte))) : LoadReport × Memory :=
  match files with
  | [] => (.loaded, m)
  | file :: rest =>
    match loadFile m file with
    | (.loaded, m1) => loadFiles m1 rest
    | (.failed, m1) => (.failed, m1)

/-- The launch state: the images in memory, every register as after reset, pc 0x3000 whatever the origins (R185, R186). -/
def State.launch (images : List (List Byte)) : State :=
  { State.reset with mem := loadImages [] images }

/-- The boot from image files: the launch state when every file was loaded; no state, so no step, when one was not (R192). -/
def State.boot (files : List (Option (List Byte))) : Option State :=
  match loadFiles [] files with
  | (.loaded, m) => some { State.reset with mem := m }
  | (.failed, _) => none

/-- Reset of a machine that has run: rule R185 applied to the current memory; CONIN is the host's (R187). -/
def State.applyReset (s : State) : State :=
  { State.reset with mem := s.mem, conin := s.conin }

/-- The host appends characters to CONIN, at any time (R200). -/
def State.supplyInput (s : State) (cs : List Byte) : State :=
  { s with conin := s.conin ++ cs }

end Sys2Proof.Machine
end

