-- ==== Sys2Proof/Safety.lean ====
section
/-! DEFINITION. The terms in which claims speak of a run: the invariant, what two states have in common, what an instruction may
write, and the states a launched machine can be in. -/

namespace Sys2Proof

open Machine

/-! ### The invariant -/

/-- A legal value of COND: no flag, or exactly one (10_state.md R24, R25). -/
abbrev condLegal (c : BitVec 3) : Prop :=
  c = 0b000#3 ∨ c = 0b001#3 ∨ c = 0b010#3 ∨ c = 0b100#3

/-- What every step keeps: memory in canonical form, COND legal. -/
abbrev Machine.State.Inv (s : State) : Prop :=
  s.mem.wf ∧ condLegal s.cond

/-! ### Frames: what a state has in common with an earlier one (40_instruction_cycle.md R95) -/

/-- Every general register but `d` is as before. -/
def sameRegsBut (d : RegIdx) (s t : State) : Prop := ∀ r, r ≠ d → t.reg r = s.reg r

/-- Every general register is as before. -/
def sameRegs (s t : State) : Prop := ∀ r, t.reg r = s.reg r

/-- Every word of memory but the one at `a` reads as before. -/
def sameMemoryBut (a : Word) (s t : State) : Prop := ∀ b, b ≠ a → t.mem.read b = s.mem.read b

/-- Every word of memory reads as before. -/
def sameMemory (s t : State) : Prop := ∀ b, t.mem.read b = s.mem.read b

/-- Both console streams are as before. -/
def sameConsole (s t : State) : Prop := t.conout = s.conout ∧ t.conin = s.conin

/-- The machine did nothing but move to the next instruction. -/
def onlyPcAdvanced (s t : State) : Prop :=
  t.pc = s.pc + 1#16 ∧ sameRegs s t ∧ t.cond = s.cond ∧ t.run = s.run ∧ sameMemory s t ∧ sameConsole s t

/-- The whole effect of a flag-affecting instruction with result `v`: DR, the flags of `v` (10_state.md R26), the pc's
increment, and nothing else. -/
def resultWritten (dr : RegIdx) (v : Word) (s t : State) : Prop :=
  t.reg dr = v ∧
  t.cond = (if v = 0x0000#16 then 0b010#3 else if v.getLsbD 15 then 0b100#3 else 0b001#3) ∧
  t.pc = s.pc + 1#16 ∧ sameRegsBut dr s t ∧ t.run = s.run ∧ sameMemory s t ∧ sameConsole s t

/-- The whole effect of a store of `v` at `a`: that word, the pc's increment, and nothing else. -/
def wordStored (a v : Word) (s t : State) : Prop :=
  t.mem.read a = v ∧ sameMemoryBut a s t ∧
  t.pc = s.pc + 1#16 ∧ sameRegs s t ∧ t.cond = s.cond ∧ t.run = s.run ∧ sameConsole s t

/-- The whole effect of a jump to `target` that writes no register: the pc, and nothing else. -/
def jumped (target : Word) (s t : State) : Prop :=
  t.pc = target ∧ sameRegs s t ∧ t.cond = s.cond ∧ t.run = s.run ∧ sameMemory s t ∧ sameConsole s t

/-- The whole effect of a jump to `target` that links: R7 holds the address after the instruction (42_control.md R114), the pc
is the target, and nothing else. -/
def jumpedLinking (target : Word) (s t : State) : Prop :=
  t.pc = target ∧ t.reg 7#3 = s.pc + 1#16 ∧
  sameRegsBut 7#3 s t ∧ t.cond = s.cond ∧ t.run = s.run ∧ sameMemory s t ∧ sameConsole s t

/-- The whole effect of printing: `cs` at the end of CONOUT, the pc's increment, and nothing else. -/
def printed (cs : List Byte) (s t : State) : Prop :=
  t.conout = s.conout ++ cs ∧
  t.pc = s.pc + 1#16 ∧ sameRegs s t ∧ t.cond = s.cond ∧ t.run = s.run ∧ sameMemory s t ∧ t.conin = s.conin

/-! ### What an instruction may write -/

/-- The general register an instruction writes, if any: DR, R7 for JSR and JSRR, R0 for GETC and IN (10_state.md R21). -/
def Instr.dest (i : Instr) : Option RegIdx :=
  match i with
  | .add dr _ _ | .addi dr _ _ | .and dr _ _ | .andi dr _ _ | .not dr _ => some dr
  | .ld dr _ | .ldi dr _ | .ldr dr _ _ | .lea dr _ => some dr
  | .jsr _ | .jsrr _ => some 7#3
  | .getc | .inTrap => some 0#3
  | .br _ _ _ _ | .jmp _ | .st _ _ | .sti _ _ | .str _ _ _ | .rti | .res => none
  | .out | .puts | .putsp | .halt | .trapOther _ => none

/-- The DR of the seven flag-affecting instructions, none for the others (10_state.md R27). -/
def Instr.flagDest (i : Instr) : Option RegIdx :=
  match i with
  | .add dr _ _ | .addi dr _ _ | .and dr _ _ | .andi dr _ _ | .not dr _ => some dr
  | .ld dr _ | .ldi dr _ | .ldr dr _ _ | .lea dr _ => some dr
  | .br _ _ _ _ | .jmp _ | .jsr _ | .jsrr _ | .st _ _ | .sti _ _ | .str _ _ _ | .rti | .res => none
  | .getc | .out | .puts | .inTrap | .putsp | .halt | .trapOther _ => none

/-- The address a store instruction writes, computed as its meaning does, and the register it stores (20_memory.md R45);
none for the instructions that store nothing. -/
def Instr.storeTarget (i : Instr) (s : State) : Option (Word × RegIdx) :=
  match i with
  | .st sr offset9 => some (s.advance.pcRel9 offset9, sr)
  | .sti sr offset9 => some (s.advance.indirect9 offset9, sr)
  | .str sr baseR offset6 => some (s.advance.baseOff6 baseR offset6, sr)
  | .add _ _ _ | .addi _ _ _ | .and _ _ _ | .andi _ _ _ | .not _ _ => none
  | .br _ _ _ _ | .jmp _ | .jsr _ | .jsrr _ | .ld _ _ | .ldi _ _ | .ldr _ _ _ | .lea _ _ => none
  | .rti | .res | .getc | .out | .puts | .inTrap | .putsp | .halt | .trapOther _ => none

/-- BR, JMP, JSR and JSRR: the only instructions that write pc beyond the increment (10_state.md R23). -/
def Instr.isControl (i : Instr) : Bool :=
  match i with
  | .br _ _ _ _ | .jmp _ | .jsr _ | .jsrr _ => true
  | .add _ _ _ | .addi _ _ _ | .and _ _ _ | .andi _ _ _ | .not _ _ => false
  | .ld _ _ | .ldi _ _ | .ldr _ _ _ | .lea _ _ | .st _ _ | .sti _ _ | .str _ _ _ | .rti | .res => false
  | .getc | .out | .puts | .inTrap | .putsp | .halt | .trapOther _ => false

/-- BR: the only instruction that reads COND (10_state.md R27). -/
def Instr.readsCond (i : Instr) : Bool :=
  match i with
  | .br _ _ _ _ => true
  | .add _ _ _ | .addi _ _ _ | .and _ _ _ | .andi _ _ _ | .not _ _ | .jmp _ | .jsr _ | .jsrr _ => false
  | .ld _ _ | .ldi _ _ | .ldr _ _ _ | .lea _ _ | .st _ _ | .sti _ _ | .str _ _ _ | .rti | .res => false
  | .getc | .out | .puts | .inTrap | .putsp | .halt | .trapOther _ => false

/-- GETC and IN: the only instructions that consume CONIN, and the only ones that can be held (44_trap.md R148). -/
def Instr.readsInput (i : Instr) : Bool :=
  match i with
  | .getc | .inTrap => true
  | .add _ _ _ | .addi _ _ _ | .and _ _ _ | .andi _ _ _ | .not _ _ => false
  | .br _ _ _ _ | .jmp _ | .jsr _ | .jsrr _ => false
  | .ld _ _ | .ldi _ _ | .ldr _ _ _ | .lea _ _ | .st _ _ | .sti _ _ | .str _ _ _ | .rti | .res => false
  | .out | .puts | .putsp | .halt | .trapOther _ => false

/-- PUTS and PUTSP: the only instructions that can fail to complete (44_trap.md R147). -/
def Instr.printsString (i : Instr) : Bool :=
  match i with
  | .puts | .putsp => true
  | .add _ _ _ | .addi _ _ _ | .and _ _ _ | .andi _ _ _ | .not _ _ => false
  | .br _ _ _ _ | .jmp _ | .jsr _ | .jsrr _ => false
  | .ld _ _ | .ldi _ _ | .ldr _ _ _ | .lea _ _ | .st _ _ | .sti _ _ | .str _ _ _ | .rti | .res => false
  | .getc | .out | .inTrap | .halt | .trapOther _ => false

/-- The instructions that read or write data memory: loads, stores, PUTS and PUTSP (20_memory.md R45). -/
def Instr.accessesMemory (i : Instr) : Bool :=
  match i with
  | .ld _ _ | .ldi _ _ | .ldr _ _ _ | .st _ _ | .sti _ _ | .str _ _ _ | .puts | .putsp => true
  | .add _ _ _ | .addi _ _ _ | .and _ _ _ | .andi _ _ _ | .not _ _ | .lea _ _ => false
  | .br _ _ _ _ | .jmp _ | .jsr _ | .jsrr _ | .rti | .res => false
  | .getc | .out | .inTrap | .halt | .trapOther _ => false

/-- The instructions that append to CONOUT: OUT, PUTS, IN, PUTSP and HALT (10_state.md R30). -/
def Instr.prints (i : Instr) : Bool :=
  match i with
  | .out | .puts | .inTrap | .putsp | .halt => true
  | .add _ _ _ | .addi _ _ _ | .and _ _ _ | .andi _ _ _ | .not _ _ => false
  | .br _ _ _ _ | .jmp _ | .jsr _ | .jsrr _ => false
  | .ld _ _ | .ldi _ _ | .ldr _ _ _ | .lea _ _ | .st _ _ | .sti _ _ | .str _ _ _ | .rti | .res => false
  | .getc | .trapOther _ => false

/-! ### Situations of a run (40_instruction_cycle.md R97 to R99) -/

/-- The instruction the next step executes. -/
def Machine.State.nextInstr (s : State) : Instr := decode s.fetch

/-- The core waits for a character: it runs, stands at GETC or IN, and CONIN is empty (R99). -/
def Machine.State.held (s : State) : Prop :=
  s.run = true ∧ s.nextInstr.readsInput = true ∧ s.conin = []

/-- No word of memory is zero, so a string has no end (44_trap.md R147). -/
def Machine.State.noZeroWord (s : State) : Prop := ∀ a : Word, s.mem.read a ≠ 0x0000#16

/-- The core stands at PUTS or PUTSP in a memory with no zero word (R147). -/
def Machine.State.hangs (s : State) : Prop :=
  s.run = true ∧ s.nextInstr.printsString = true ∧ s.noZeroWord

/-- The states a machine booted from image files can be in, whatever input the host supplies, and when: none at all when a file
cannot be opened (70_reset_and_hazards.md R188, R192, R194, R200). -/
inductive Reachable (files : List (Option (List Byte))) : State → Prop where
  | launched (s : State) : State.boot files = some s → Reachable files s
  | stepped (s t : State) : Reachable files s → step s = .next t → Reachable files t
  | supplied (s : State) (cs : List Byte) : Reachable files s → Reachable files (s.supplyInput cs)

end Sys2Proof
end

