-- ==== Sys2Proof/Certificates/Slice0/Obligations.lean ====
section
/-! DEFINITION. The statements for the provers, by the numbered rules of spec/. In the statements about one instruction the first
clause gives its encoding by the opcode's NAME and the fields' bit positions; the numbers of the opcodes stand apart in
Obligations.OpcodeNumbersAndSampleWords, since the spec has them from general knowledge (30_encoding.md R62, GK1; log entry 12).
`exec i s` is the whole step of instruction `i` fetched in state `s` (log entry 11), so `s.pc + 1` is the rules' `pc`. -/

open Sys2Proof Sys2Proof.Machine

/-! ### Arithmetic and logic (41_alu.md) -/

/-- R100: ADD, register form. -/
def Obligations.AddRegisterForm : Prop :=
  (∀ w : Word, Opcode.ofBits (w.extractLsb' 12 4) = .add → w.getLsbD 5 = false →
    decode w = .add (w.extractLsb' 9 3) (w.extractLsb' 6 3) (w.extractLsb' 0 3)) ∧
  ∀ (dr sr1 sr2 : RegIdx) (s : State), ∃ t, exec (.add dr sr1 sr2) s = .next t ∧
    resultWritten dr (BitVec.ofNat 16 ((s.reg sr1).toNat + (s.reg sr2).toNat)) s t

/-- R101: ADD, immediate form. -/
def Obligations.AddImmediateForm : Prop :=
  (∀ w : Word, Opcode.ofBits (w.extractLsb' 12 4) = .add → w.getLsbD 5 = true →
    decode w = .addi (w.extractLsb' 9 3) (w.extractLsb' 6 3) (w.extractLsb' 0 5)) ∧
  ∀ (dr sr1 : RegIdx) (imm5 : BitVec 5) (s : State), ∃ t, exec (.addi dr sr1 imm5) s = .next t ∧
    resultWritten dr (BitVec.ofNat 16 ((s.reg sr1).toNat + (sext imm5).toNat)) s t

/-- R102: AND, register form. -/
def Obligations.AndRegisterForm : Prop :=
  (∀ w : Word, Opcode.ofBits (w.extractLsb' 12 4) = .and → w.getLsbD 5 = false →
    decode w = .and (w.extractLsb' 9 3) (w.extractLsb' 6 3) (w.extractLsb' 0 3)) ∧
  ∀ (dr sr1 sr2 : RegIdx) (s : State), ∃ t, exec (.and dr sr1 sr2) s = .next t ∧
    resultWritten dr (s.reg sr1 &&& s.reg sr2) s t

/-- R103: AND, immediate form; a negative immediate keeps the upper eleven bits of SR1. -/
def Obligations.AndImmediateForm : Prop :=
  (∀ w : Word, Opcode.ofBits (w.extractLsb' 12 4) = .and → w.getLsbD 5 = true →
    decode w = .andi (w.extractLsb' 9 3) (w.extractLsb' 6 3) (w.extractLsb' 0 5)) ∧
  ∀ (dr sr1 : RegIdx) (imm5 : BitVec 5) (s : State), ∃ t, exec (.andi dr sr1 imm5) s = .next t ∧
    resultWritten dr (s.reg sr1 &&& sext imm5) s t ∧
    (imm5.getLsbD 4 = true → (t.reg dr).extractLsb' 5 11 = (s.reg sr1).extractLsb' 5 11)

/-- R104: NOT; the complement is 65535 less the source. -/
def Obligations.NotEffect : Prop :=
  (∀ w : Word, Opcode.ofBits (w.extractLsb' 12 4) = .not →
    decode w = .not (w.extractLsb' 9 3) (w.extractLsb' 6 3)) ∧
  ∀ (dr sr : RegIdx) (s : State), ∃ t, exec (.not dr sr) s = .next t ∧
    resultWritten dr (BitVec.ofNat 16 (65535 - (s.reg sr).toNat)) s t

/-! ### Control transfer (42_control.md) -/

/-- R110: BR. -/
def Obligations.BranchEffect : Prop :=
  (∀ w : Word, Opcode.ofBits (w.extractLsb' 12 4) = .br →
    decode w = .br (w.getLsbD 11) (w.getLsbD 10) (w.getLsbD 9) (w.extractLsb' 0 9)) ∧
  ∀ (n z p : Bool) (offset9 : BitVec 9) (s : State), ∃ t, exec (.br n z p offset9) s = .next t ∧
    jumped
      (if (n = true ∧ s.cond.getLsbD 2 = true) ∨ (z = true ∧ s.cond.getLsbD 1 = true) ∨ (p = true ∧ s.cond.getLsbD 0 = true)
        then s.pc + 1#16 + sext offset9 else s.pc + 1#16) s t

/-- The BR truth table of 42_control.md section 1, its fourth column (no flag set, derived there from the spec's decision D3)
included: with exactly one flag set BR is taken if and only if that flag is tested, with none it never is. -/
def Obligations.BranchTruthTable : Prop :=
  ∀ (n z p : Bool) (offset9 : BitVec 9) (s : State),
    (s.cond = 0b100#3 → ∃ t, exec (.br n z p offset9) s = .next t ∧
      t.pc = if n then s.pc + 1#16 + sext offset9 else s.pc + 1#16) ∧
    (s.cond = 0b010#3 → ∃ t, exec (.br n z p offset9) s = .next t ∧
      t.pc = if z then s.pc + 1#16 + sext offset9 else s.pc + 1#16) ∧
    (s.cond = 0b001#3 → ∃ t, exec (.br n z p offset9) s = .next t ∧
      t.pc = if p then s.pc + 1#16 + sext offset9 else s.pc + 1#16) ∧
    (s.cond = 0b000#3 → ∃ t, exec (.br n z p offset9) s = .next t ∧ t.pc = s.pc + 1#16)

/-- R112: JMP. -/
def Obligations.JumpEffect : Prop :=
  (∀ w : Word, Opcode.ofBits (w.extractLsb' 12 4) = .jmp → decode w = .jmp (w.extractLsb' 6 3)) ∧
  ∀ (baseR : RegIdx) (s : State), ∃ t, exec (.jmp baseR) s = .next t ∧ jumped (s.reg baseR) s t

/-- A subroutine entered by JSR or JSRR returns by JMP R7 to the instruction after the call, from any later state in which R7
still holds the link value (42_control.md section 2, RET). -/
def Obligations.SubroutineReturns : Prop :=
  ∀ (call : Instr) (s t u : State), call.dest = some 7#3 → call.isControl = true → exec call s = .next t →
    u.reg 7#3 = t.reg 7#3 → ∃ v, exec (.jmp 7#3) u = .next v ∧ jumped (s.pc + 1#16) u v

/-- R114: JSR. -/
def Obligations.JsrEffect : Prop :=
  (∀ w : Word, Opcode.ofBits (w.extractLsb' 12 4) = .jsr → w.getLsbD 11 = true → decode w = .jsr (w.extractLsb' 0 11)) ∧
  ∀ (off11 : BitVec 11) (s : State), ∃ t, exec (.jsr off11) s = .next t ∧
    jumpedLinking (s.pc + 1#16 + sext off11) s t

/-- JSRR (42_control.md section 3). `JSRR R7` goes to the next instruction: the spec's own decision D6 (log entry 12). -/
def Obligations.JsrrEffect : Prop :=
  (∀ w : Word, Opcode.ofBits (w.extractLsb' 12 4) = .jsr → w.getLsbD 11 = false → decode w = .jsrr (w.extractLsb' 6 3)) ∧
  ∀ (baseR : RegIdx) (s : State), ∃ t, exec (.jsrr baseR) s = .next t ∧
    jumpedLinking (if baseR = 7#3 then s.pc + 1#16 else s.reg baseR) s t

/-! ### Loads, LEA and stores (43_loadstore.md) -/

/-- R121: LD. -/
def Obligations.LoadEffect : Prop :=
  (∀ w : Word, Opcode.ofBits (w.extractLsb' 12 4) = .ld → decode w = .ld (w.extractLsb' 9 3) (w.extractLsb' 0 9)) ∧
  ∀ (dr : RegIdx) (offset9 : BitVec 9) (s : State), ∃ t, exec (.ld dr offset9) s = .next t ∧
    resultWritten dr (s.mem.read (s.pc + 1#16 + sext offset9)) s t

/-- R122: LDI, double indirection. -/
def Obligations.LoadIndirectEffect : Prop :=
  (∀ w : Word, Opcode.ofBits (w.extractLsb' 12 4) = .ldi → decode w = .ldi (w.extractLsb' 9 3) (w.extractLsb' 0 9)) ∧
  ∀ (dr : RegIdx) (offset9 : BitVec 9) (s : State), ∃ t, exec (.ldi dr offset9) s = .next t ∧
    resultWritten dr (s.mem.read (s.mem.read (s.pc + 1#16 + sext offset9))) s t

/-- R123: LDR; DR is the full 3-bit field. -/
def Obligations.LoadRegisterEffect : Prop :=
  (∀ w : Word, Opcode.ofBits (w.extractLsb' 12 4) = .ldr →
    decode w = .ldr (w.extractLsb' 9 3) (w.extractLsb' 6 3) (w.extractLsb' 0 6)) ∧
  ∀ (dr baseR : RegIdx) (offset6 : BitVec 6) (s : State), ∃ t, exec (.ldr dr baseR offset6) s = .next t ∧
    resultWritten dr (s.mem.read (s.reg baseR + sext offset6)) s t

/-- R124: LEA; the flags are those of the address. -/
def Obligations.LoadAddressEffect : Prop :=
  (∀ w : Word, Opcode.ofBits (w.extractLsb' 12 4) = .lea → decode w = .lea (w.extractLsb' 9 3) (w.extractLsb' 0 9)) ∧
  ∀ (dr : RegIdx) (offset9 : BitVec 9) (s : State), ∃ t, exec (.lea dr offset9) s = .next t ∧
    resultWritten dr (s.pc + 1#16 + sext offset9) s t

/-- R125: ST. -/
def Obligations.StoreEffect : Prop :=
  (∀ w : Word, Opcode.ofBits (w.extractLsb' 12 4) = .st → decode w = .st (w.extractLsb' 9 3) (w.extractLsb' 0 9)) ∧
  ∀ (sr : RegIdx) (offset9 : BitVec 9) (s : State), ∃ t, exec (.st sr offset9) s = .next t ∧
    wordStored (s.pc + 1#16 + sext offset9) (s.reg sr) s t

/-- R126: STI; the pointer is read before the write. -/
def Obligations.StoreIndirectEffect : Prop :=
  (∀ w : Word, Opcode.ofBits (w.extractLsb' 12 4) = .sti → decode w = .sti (w.extractLsb' 9 3) (w.extractLsb' 0 9)) ∧
  ∀ (sr : RegIdx) (offset9 : BitVec 9) (s : State), ∃ t, exec (.sti sr offset9) s = .next t ∧
    wordStored (s.mem.read (s.pc + 1#16 + sext offset9)) (s.reg sr) s t

/-- R127: STR. -/
def Obligations.StoreRegisterEffect : Prop :=
  (∀ w : Word, Opcode.ofBits (w.extractLsb' 12 4) = .str →
    decode w = .str (w.extractLsb' 9 3) (w.extractLsb' 6 3) (w.extractLsb' 0 6)) ∧
  ∀ (sr baseR : RegIdx) (offset6 : BitVec 6) (s : State), ∃ t, exec (.str sr baseR offset6) s = .next t ∧
    wordStored (s.reg baseR + sext offset6) (s.reg sr) s t

/-! ### TRAP (44_trap.md) and the reserved opcodes (45_reserved.md) -/

/-- R155: RTI. -/
def Obligations.RtiIsNoOp : Prop :=
  (∀ w : Word, Opcode.ofBits (w.extractLsb' 12 4) = .rti → decode w = .rti) ∧
  ∀ s : State, ∃ t, exec .rti s = .next t ∧ onlyPcAdvanced s t

/-- R156: RES. -/
def Obligations.ResIsNoOp : Prop :=
  (∀ w : Word, Opcode.ofBits (w.extractLsb' 12 4) = .res → decode w = .res) ∧
  ∀ s : State, ∃ t, exec .res s = .next t ∧ onlyPcAdvanced s t

/-- The trap vector dispatch: `bits[7:0]` selects the operation, and no other bit of a TRAP word does (44_trap.md section 1; that
`bits[11:8]` are ignored is the spec's decision D5, that other vectors are no-ops D12; log entry 12). -/
def Obligations.TrapVectorDispatch : Prop :=
  ∀ w : Word, Opcode.ofBits (w.extractLsb' 12 4) = .trap →
    (w.extractLsb' 0 8 = 0x20#8 → decode w = .getc) ∧
    (w.extractLsb' 0 8 = 0x21#8 → decode w = .out) ∧
    (w.extractLsb' 0 8 = 0x22#8 → decode w = .puts) ∧
    (w.extractLsb' 0 8 = 0x23#8 → decode w = .inTrap) ∧
    (w.extractLsb' 0 8 = 0x24#8 → decode w = .putsp) ∧
    (w.extractLsb' 0 8 = 0x25#8 → decode w = .halt) ∧
    ((w.extractLsb' 0 8).toNat < 0x20 ∨ 0x25 < (w.extractLsb' 0 8).toNat → decode w = .trapOther (w.extractLsb' 0 8))

/-- GETC with a character available (44_trap.md section 2): R0 is that character, zero-extended, and COND is not written (the
spec's decision D8; CONIN and its empty case are D14; log entry 12). -/
def Obligations.GetcReadsCharacter : Prop :=
  ∀ (c : Byte) (rest : List Byte) (s : State), s.conin = c :: rest → ∃ t, exec .getc s = .next t ∧
    (t.reg 0#3).toNat = c.toNat ∧ t.conin = rest ∧ t.conout = s.conout ∧
    t.pc = s.pc + 1#16 ∧ sameRegsBut 0#3 s t ∧ t.cond = s.cond ∧ t.run = s.run ∧ sameMemory s t

/-- R137: OUT. -/
def Obligations.OutPrintsLowByte : Prop :=
  ∀ s : State, ∃ t, exec .out s = .next t ∧ printed [(s.reg 0#3).extractLsb' 0 8] s t

/-- R138: PUTS prints the low bytes of the words before the first zero word, k words on (the address wraps). -/
def Obligations.PutsPrintsLowBytes : Prop :=
  ∀ (s : State) (k : Nat), k < 65536 →
    (∀ j, j < k → s.mem.read (s.reg 0#3 + BitVec.ofNat 16 j) ≠ 0x0000#16) →
    s.mem.read (s.reg 0#3 + BitVec.ofNat 16 k) = 0x0000#16 →
    ∃ t, exec .puts s = .next t ∧
      printed ((List.range k).map fun j => (s.mem.read (s.reg 0#3 + BitVec.ofNat 16 j)).extractLsb' 0 8) s t

/-- IN with a character available (44_trap.md section 2): CONOUT gains PROMPT and then the character, R0 is the character,
zero-extended (the spec's decisions D9, D21; COND not written D8; log entry 12). -/
def Obligations.InPromptsReadsEchoes : Prop :=
  ∀ (c : Byte) (rest : List Byte) (s : State), s.conin = c :: rest → ∃ t, exec .inTrap s = .next t ∧
    t.conout = s.conout ++ Config.prompt ++ [c] ∧ (t.reg 0#3).toNat = c.toNat ∧ t.conin = rest ∧
    t.pc = s.pc + 1#16 ∧ sameRegsBut 0#3 s t ∧ t.cond = s.cond ∧ t.run = s.run ∧ sameMemory s t

/-- PUTSP prints two characters a word, low byte first, up to the first zero word (44_trap.md section 2); that a zero high byte
is skipped and nothing else is is the spec's decision D19 (log entry 12). -/
def Obligations.PutspPrintsPackedBytes : Prop :=
  ∀ (s : State) (k : Nat), k < 65536 →
    (∀ j, j < k → s.mem.read (s.reg 0#3 + BitVec.ofNat 16 j) ≠ 0x0000#16) →
    s.mem.read (s.reg 0#3 + BitVec.ofNat 16 k) = 0x0000#16 →
    ∃ t, exec .putsp s = .next t ∧
      printed ((List.range k).flatMap fun j =>
        (s.mem.read (s.reg 0#3 + BitVec.ofNat 16 j)).extractLsb' 0 8 ::
          [(s.mem.read (s.reg 0#3 + BitVec.ofNat 16 j)).extractLsb' 8 8].filter (· ≠ 0x00#8)) s t

/-- R141: HALT; no step follows it, and no other instruction makes run 0. -/
def Obligations.HaltPrintsNoticeAndStops : Prop :=
  (∀ s : State, ∃ t, exec .halt s = .next t ∧ t.run = false ∧ t.conout = s.conout ++ Config.haltNotice ∧
    t.pc = s.pc + 1#16 ∧ sameRegs s t ∧ t.cond = s.cond ∧ sameMemory s t ∧ t.conin = s.conin ∧
    ∀ u, step t ≠ .next u) ∧
  ∀ (i : Instr) (s t : State), i ≠ .halt → exec i s = .next t → t.run = s.run

/-- TRAP with an unrecognised vector is a no-op (44_trap.md section 2; the spec's decision D12, log entry 12). -/
def Obligations.OtherTrapIsNoOp : Prop :=
  ∀ (v : Byte) (s : State), ∃ t, exec (.trapOther v) s = .next t ∧ onlyPcAdvanced s t

/-- PUTS and PUTSP fail to complete if and only if no word of memory is zero (44_trap.md section 3; the wrap is the spec's
decision D18; that a hang is the outcome endlessString is the model's, log entry 7). -/
def Obligations.StringTrapHangsIffNoZeroWord : Prop :=
  ∀ s : State,
    (exec .puts s = .fault .endlessString ↔ ∀ a : Word, s.mem.read a ≠ 0x0000#16) ∧
    (exec .putsp s = .fault .endlessString ↔ ∀ a : Word, s.mem.read a ≠ 0x0000#16)

/-- GETC and IN in a state with no character are held: the step changes nothing, and it completes as soon as the host has
supplied a character (40_instruction_cycle.md section 2; the spec's decision D14; held as an unchanged next state is the model's,
log entry 5). -/
def Obligations.HeldUntilInputArrives : Prop :=
  ∀ s : State, s.held → step s = .next s ∧
    ∀ (c : Byte) (cs : List Byte), ∃ t, step (s.supplyInput (c :: cs)) = .next t ∧
      t.pc = s.pc + 1#16 ∧ (t.reg 0#3).toNat = c.toNat ∧ t.conin = cs

/-! ### Extension and flags -/

/-- R13: sign extension, by the rule's formula. -/
def Obligations.SignExtensionFormula : Prop :=
  ∀ (n : Nat) (v : BitVec n), 1 ≤ n → n ≤ 16 →
    (sext v).toNat = if v.getLsbD (n - 1) then v.toNat + (65536 - 2 ^ n) else v.toNat

/-- R26: the condition-flag updater. -/
def Obligations.FlagUpdater : Prop :=
  ∀ (s : State) (v : Word),
    (v = 0x0000#16 → (s.setcc v).cond = 0b010#3) ∧
    (v.getLsbD 15 = true → (s.setcc v).cond = 0b100#3) ∧
    (v ≠ 0x0000#16 → v.getLsbD 15 = false → (s.setcc v).cond = 0b001#3)

/-- R27: who writes and who reads COND. The seven flag-affecting instructions set it by the new value of DR, no other writes it;
for every instruction but BR the step is the same whatever COND holds. -/
def Obligations.WhoWritesAndReadsCond : Prop :=
  (∀ (i : Instr) (s t : State), exec i s = .next t →
    (∀ dr, i.flagDest = some dr →
      t.cond = if t.reg dr = 0x0000#16 then 0b010#3 else if (t.reg dr).getLsbD 15 then 0b100#3 else 0b001#3) ∧
    (i.flagDest = none → t.cond = s.cond)) ∧
  ∀ (i : Instr) (s t : State) (c : BitVec 3), i.readsCond = false → exec i s = .next t →
    ∃ t', exec i { s with cond := c } = .next t' ∧ { t' with cond := t.cond } = t

/-- Once exactly one flag is set, exactly one is set after every step; after a flag-affecting instruction it is in any case
(10_state.md section 3). -/
def Obligations.ExactlyOneFlagForEver : Prop :=
  ∀ (i : Instr) (s t : State), exec i s = .next t →
    (i.flagDest ≠ none ∨ s.cond = 0b001#3 ∨ s.cond = 0b010#3 ∨ s.cond = 0b100#3) →
    t.cond = 0b001#3 ∨ t.cond = 0b010#3 ∨ t.cond = 0b100#3

/-! ### Frames over all instructions -/

/-- Memory is written by ST, STI and STR only, each the one word at its address; every other instruction leaves every word as it
was (10_state.md section 4, 20_memory.md section 3). -/
def Obligations.OnlyStoresWriteMemory : Prop :=
  ∀ (i : Instr) (s t : State), exec i s = .next t →
    (i.storeTarget s = none → sameMemory s t) ∧
    ∀ a r, i.storeTarget s = some (a, r) → t.mem.read a = s.reg r ∧ sameMemoryBut a s t

/-- An instruction writes no general register but its DR, R7 for JSR and JSRR, R0 for GETC and IN (10_state.md section 1,
43_loadstore.md section 4, 44_trap.md section 3). -/
def Obligations.OnlyDestinationRegisterWritten : Prop :=
  ∀ (i : Instr) (s t : State), exec i s = .next t → ∀ r, i.dest ≠ some r → t.reg r = s.reg r

/-- Only BR, JMP, JSR and JSRR write pc beyond the increment; every other instruction that is not held goes to the next word
(10_state.md section 2, 40_instruction_cycle.md section 1). -/
def Obligations.OnlyControlTransfersMovePc : Prop :=
  ∀ (i : Instr) (s t : State), i.isControl = false → (i.readsInput = true → s.conin ≠ []) → exec i s = .next t →
    t.pc = s.pc + 1#16

/-- CONOUT is append-only and only OUT, PUTS, IN, PUTSP and HALT append to it; CONIN loses its first character, to GETC and IN
only (10_state.md section 4, the spec's decision D14, log entry 12). -/
def Obligations.ConsoleStreamsFrame : Prop :=
  ∀ (i : Instr) (s t : State), exec i s = .next t →
    (∃ cs, t.conout = s.conout ++ cs) ∧ (i.prints = false → t.conout = s.conout) ∧
    (i.readsInput = false → t.conin = s.conin) ∧ (i.readsInput = true → t.conin = s.conin.tail)

/-- No instruction but GETC and IN sees what the host has supplied: with any other CONIN the step is the same, CONIN apart
(44_trap.md section 3, 70_reset_and_hazards.md section 6). -/
def Obligations.InputIndependence : Prop :=
  ∀ (i : Instr) (s t : State) (cs : List Byte), i.readsInput = false → exec i s = .next t →
    exec i (s.setConin cs) = .next (t.setConin cs)

/-- An instruction that accesses no data memory does the same whatever memory holds; in particular no trap but PUTS and PUTSP
reads memory, so there is no vector table (20_memory.md section 3, 44_trap.md section 3). -/
def Obligations.MemoryIndependence : Prop :=
  ∀ (i : Instr) (s t : State) (m : Memory), i.accessesMemory = false → exec i s = .next t →
    exec i { s with mem := m } = .next { t with mem := m }

/-! ### The instruction cycle, and the end of a run -/

/-- A step of a running machine is the decoded instruction's own: the word at pc, decoded, executed; the pc's increment is the
instruction's first act (40_instruction_cycle.md section 1; log entry 11). -/
def Obligations.StepRunsDecodedInstruction : Prop :=
  ∀ (s : State) (i : Instr), s.run = true → decode (s.mem.read s.pc) = i → step s = exec i s

/-- Whatever the state, placing an instruction word where the machine fetches makes the next step run it (log entry 10). -/
def Obligations.PlacedWordRunsNext : Prop :=
  ∀ (s : State) (w : Word),
    step (s.withFetchWord 16 w.toNat) = exec (decode w) (s.withFetchWord 16 w.toNat) ∧
    decodeTableWord 16 w.toNat = some (decode w)

/-- The outcomes of an instruction: a next state in every state, but for PUTS and PUTSP in a memory with no zero word, which do
not complete (that this is the outcome endlessString is the model's, log entry 7); never a refusal. GETC and IN with CONIN empty
are held, which is not completing: their unchanged next state there is the model's (log entry 5). 40_instruction_cycle.md
section 2, 60_exceptions.md section 1. -/
def Obligations.EveryInstructionCompletesOrHangs : Prop :=
  ∀ (i : Instr) (s : State),
    (¬ (i.printsString = true ∧ s.noZeroWord) → ∃ t, exec i s = .next t) ∧
    (i.printsString = true → s.noZeroWord → exec i s = .fault .endlessString)

/-- The outcomes of a step: none if halted (that this is the outcome halted is the model's, log entry 6), none if it hangs
(endlessString, log entry 7), else a next state. The held step, an outcome of its own in the spec, is among the last: its
unchanged next state is the model's (log entry 5). 40_instruction_cycle.md section 2. -/
def Obligations.StepOutcomes : Prop :=
  ∀ s : State,
    (s.run = false → step s = .fault .halted) ∧
    (s.hangs → step s = .fault .endlessString) ∧
    (s.run = true → ¬ s.hangs → ∃ t, step s = .next t)

/-- A run ends when, and only when, a step executes HALT, and from the state after it there is no step (70_reset_and_hazards.md
section 5; the outcome halted is the model's, log entry 6). -/
def Obligations.RunEndsOnlyByHalt : Prop :=
  ∀ s t : State, step s = .next t →
    (t.run = false ↔ s.nextInstr = .halt) ∧ (s.nextInstr = .halt → step t = .fault .halted)

/-- A store into the next word is seen by the next fetch, and a store to the storing instruction's own word does not affect the
step that makes it (20_memory.md section 5, 70_reset_and_hazards.md section 3, inferences the spec marks as derived). -/
def Obligations.StoreThenFetch : Prop :=
  (∀ (s : State) (sr : RegIdx), s.run = true → s.nextInstr = .st sr 0#9 →
    ∃ t, step s = .next t ∧ step t = exec (decode (s.reg sr)) t) ∧
  ∀ (s : State) (sr : RegIdx), s.run = true → s.nextInstr = .st sr 0x1FF#9 →
    ∃ t, step s = .next t ∧ t.mem.read s.pc = s.reg sr ∧ t.pc = s.pc + 1#16 ∧ sameRegs s t

/-- A load after a store to the same address returns the stored value (20_memory.md section 5). -/
def Obligations.LoadAfterStore : Prop :=
  ∀ (s t : State) (sr dr baseR : RegIdx) (offset6 : BitVec 6), exec (.str sr baseR offset6) s = .next t →
    ∃ u, exec (.ldr dr baseR offset6) t = .next u ∧ u.reg dr = s.reg sr

/-! ### Reset, boot and the invariant -/

/-- What reset leaves, at launch and when applied again (10_state.md section 5, 70_reset_and_hazards.md section 1): that COND is
0b000 is the spec's decision D3, that CONIN is empty at State.reset is the model's (log entry 8), that an unwritten word reads
as INIT_MEM is R41 (log entry 2). -/
def Obligations.ResetState : Prop :=
  (∀ r, State.reset.reg r = 0x0000#16) ∧ State.reset.pc = 0x3000#16 ∧ State.reset.cond = 0b000#3 ∧
  State.reset.run = true ∧ State.reset.conout = [] ∧ State.reset.conin = [] ∧
  (∀ a : Word, State.reset.mem.read a = Config.initMem a) ∧
  (∀ images, (State.launch images).pc = 0x3000#16 ∧ sameRegs State.reset (State.launch images) ∧
    (State.launch images).cond = 0b000#3 ∧ (State.launch images).run = true ∧ (State.launch images).conout = []) ∧
  ∀ s : State, sameRegs State.reset s.applyReset ∧ s.applyReset.pc = 0x3000#16 ∧ s.applyReset.cond = 0b000#3 ∧
    s.applyReset.run = true ∧ s.applyReset.conout = [] ∧ sameMemory s s.applyReset ∧ s.applyReset.conin = s.conin

/-- The loader's contract (70_reset_and_hazards.md section 2): content word k, high byte first, goes to origin + k when both of
its bytes are there, and every other word, below the origin or beyond the stream, is as before; nothing wraps. That an odd
trailing byte is ignored is the spec's decision D27 (log entry 12). -/
def Obligations.LoaderContract : Prop :=
  ∀ (m : Memory) (b0 b1 : Byte) (content : List Byte) (a : Word) (origin k : Nat),
    origin = 256 * b0.toNat + b1.toNat → k = a.toNat - origin →
    (origin ≤ a.toNat ∧ 2 * k + 1 < content.length →
      ((loadImage m (b0 :: b1 :: content)).read a).toNat =
        256 * (content.getD (2 * k) 0#8).toNat + (content.getD (2 * k + 1) 0#8).toNat) ∧
    (¬ (origin ≤ a.toNat ∧ 2 * k + 1 < content.length) →
      (loadImage m (b0 :: b1 :: content)).read a = m.read a)

/-- R192: an image file that cannot be opened (`none`) is reported and does not change memory; either every image was loaded and
the run starts in the launch state, or there is no launch and no state of a run, so no step is ever taken. -/
def Obligations.LoadFailure : Prop :=
  (∀ m : Memory, loadFile m none = (.failed, m)) ∧
  (∀ images : List (List Byte), (loadFiles [] (images.map some)).1 = .loaded ∧
    State.boot (images.map some) = some (State.launch images) ∧ (State.launch images).run = true ∧
    Reachable (images.map some) (State.launch images)) ∧
  ∀ files : List (Option (List Byte)), none ∈ files →
    (∀ m, (loadFiles m files).1 = .failed) ∧ State.boot files = none ∧ ∀ s, ¬ Reachable files s

/-- R189: swap_byte_order exchanges the two bytes and is its own inverse. -/
def Obligations.SwapByteOrderInvolution : Prop :=
  ∀ w : Word, (swapByteOrder w).extractLsb' 8 8 = w.extractLsb' 0 8 ∧
    (swapByteOrder w).extractLsb' 0 8 = w.extractLsb' 8 8 ∧ swapByteOrder (swapByteOrder w) = w

/-- The invariant holds after reset. -/
def Obligations.ResetMeetsInvariant : Prop :=
  State.reset.Inv

/-- From every state that meets the invariant (memory canonical, COND with at most one flag), a step gives one that does. -/
def Obligations.EveryStepKeepsInvariant : Prop :=
  ∀ s t : State, s.Inv → step s = .next t → t.Inv

/-- Whatever image files the machine is booted from, however the machine steps and whatever input the host supplies, and when, the
invariant holds. -/
def Obligations.ReachableStatesMeetInvariant : Prop :=
  ∀ (files : List (Option (List Byte))) (s : State), Reachable files s → s.Inv

/-! ### Encoding (30_encoding.md) -/

/-- The opcode numbers (the spec's general knowledge GK1, log entry 12), and words of every family assembled from the formats. -/
def Obligations.OpcodeNumbersAndSampleWords : Prop :=
  (List.range 16).map (fun n => Opcode.ofBits (BitVec.ofNat 4 n)) =
    [.br, .add, .ld, .st, .jsr, .and, .ldr, .str, .rti, .not, .ldi, .sti, .jmp, .res, .lea, .trap] ∧
  decode 0x1642#16 = .add 3#3 1#3 2#3 ∧ decode 0x1270#16 = .addi 1#3 1#3 0b10000#5 ∧ decode 0x927F#16 = .not 1#3 1#3 ∧
  decode 0x0402#16 = .br false true false 2#9 ∧ decode 0xC1C0#16 = .jmp 7#3 ∧ decode 0x4C00#16 = .jsr 0x400#11 ∧
  decode 0x4080#16 = .jsrr 2#3 ∧ decode 0x6FBF#16 = .ldr 7#3 6#3 0b111111#6 ∧ decode 0xB601#16 = .sti 3#3 1#9 ∧
  decode 0xFF21#16 = .out ∧ decode 0xF026#16 = .trapOther 0x26#8 ∧ decode 0x8ABC#16 = .rti ∧ decode 0xDFFF#16 = .res

/-- Decode and encode agree: every well-formed instruction, at every value of every field, is read back from its word. -/
def Obligations.DecodeOfEncode : Prop :=
  ∀ i : Instr, i.wf = true → decode (encode i) = i

/-- The other way: encoding what a word decodes to gives the word back, its unused bits apart. -/
def Obligations.EncodeOfDecode : Prop :=
  ∀ w : Word, encode (decode w) ||| (decode w).unused = w ||| (decode w).unused

/-- Unused bits are ignored: a word with any pattern there decodes to the same instruction (30_encoding.md section 4, the spec's
decision D5, log entry 12). -/
def Obligations.UnusedBitsIgnored : Prop :=
  ∀ w x : Word, decode (w ^^^ (x &&& (decode w).unused)) = decode w

/-- The decoder follows the opcode table: the first row that applies to a word is that of the instruction it decodes to, and no
word is left over; every instruction decoded is well-formed (30_encoding.md section 4). -/
def Obligations.DecoderFollowsOpcodeTable : Prop :=
  ∀ w : Word, opcodeTable.find? (fun r => r.applies w) = some (decode w).row ∧ (decode w).wf = true

/-- The words 0x0000 to 0x01FF, BR with no flag tested, only advance pc, the all-zero word among them (30_encoding.md section 4;
opcode 0 for BR is the spec's general knowledge GK1, log entry 12). -/
def Obligations.UntestedBranchIsNoOp : Prop :=
  ∀ (w : Word) (s : State), w.toNat < 0x200 → ∃ t, exec (decode w) s = .next t ∧ onlyPcAdvanced s t
end

