-- ==== Sys2Proof/Laws/Encoding.lean ====
section
/-! SUPPORT. Words bit by bit: what a placed field's bits are, and opcode numbers and names. -/

namespace Sys2Proof

/-- Two words with the same sixteen bits are the same word. -/
theorem word_ext {v w : Word} (h : ∀ i : Fin 16, v.getLsbD i = w.getLsbD i) : v = w :=
  BitVec.eq_of_getLsbD_eq fun i hi => h ⟨i, hi⟩

@[simp] theorem getLsbD_place {n : Nat} (v : BitVec n) (lo i : Nat) :
    (place v lo).getLsbD i = (decide (i < 16) && decide (lo ≤ i) && v.getLsbD (i - lo)) := by
  by_cases h : i < 16 <;> by_cases h' : lo ≤ i <;> simp [place, h, h']

@[simp] theorem getElem_place {n : Nat} (v : BitVec n) (lo i : Nat) (hi : i < 16) :
    (place v lo)[i] = (decide (lo ≤ i) && v.getLsbD (i - lo)) := by
  rw [← BitVec.getLsbD_eq_getElem, getLsbD_place]; simp [hi]

/-! ### Reading a field of a word put together from placed fields -/

theorem extract_or (v w : Word) (lo n : Nat) :
    (v ||| w).extractLsb' lo n = v.extractLsb' lo n ||| w.extractLsb' lo n := by
  apply BitVec.eq_of_getLsbD_eq
  intro i hi
  simp [hi]

/-- A field is read back from the place it was put. -/
theorem extract_place {n : Nat} (v : BitVec n) (lo : Nat) (h : lo + n ≤ 16) : (place v lo).extractLsb' lo n = v := by
  apply BitVec.eq_of_getLsbD_eq
  intro i hi
  have hlt : lo + i < 16 := by omega
  simp [hi, hlt]

/-- A field at another place reads nothing of it. -/
theorem extract_place_of_disjoint {m : Nat} (v : BitVec m) (lo lo' n : Nat) (h : lo' + n ≤ lo ∨ lo + m ≤ lo') :
    (place v lo).extractLsb' lo' n = 0#n := by
  apply BitVec.eq_of_getLsbD_eq
  intro i hi
  simp only [BitVec.getLsbD_extractLsb', getLsbD_place, BitVec.getLsbD_zero, Bool.and_eq_false_imp, decide_eq_true_eq,
    Bool.and_eq_true]
  rintro - ⟨-, hle⟩
  exact BitVec.getLsbD_of_ge _ _ (by omega)

/-! ### Opcode numbers and names -/

theorem Opcode.ofBits_bits (o : Opcode) : Opcode.ofBits o.bits = o := by
  cases o <;> rfl

theorem Opcode.bits_ofBits (b : BitVec 4) : (Opcode.ofBits b).bits = b := by
  revert b; decide

end Sys2Proof
end

