-- ==== Sys2Proof/Laws/Memory.lean ====
section
/-! SUPPORT. The laws of memory: read after write, that every memory operation keeps the canonical form, what a boot can
give, and that two canonical memories with the same words are the same data. -/

namespace Sys2Proof.Machine

/-! ### Read after write (20_memory.md R41, R46) -/

theorem Memory.find?_insert (m : Memory) (a b : Nat) (v : Word) :
    (m.insert a v).find? b = if b = a then some v else m.find? b := by
  induction m with
  | nil => simp [Memory.insert, Memory.find?]
  | cons c rest ih =>
    obtain ⟨k, w⟩ := c
    simp only [Memory.insert]
    by_cases hlt : a < k
    · simp [hlt, Memory.find?]
    · by_cases heq : a = k
      · subst heq
        by_cases hb : b = a <;> simp [Memory.find?, hb]
      · simp only [hlt, heq, if_false, Memory.find?, ih]
        by_cases hb : b = a
        · subst hb; simp [heq]
        · simp [hb]

@[simp] theorem Memory.read_write (m : Memory) (a b v : Word) :
    (m.write a v).read b = if b = a then v else m.read b := by
  simp only [Memory.read, Memory.write, Memory.find?_insert, BitVec.toNat_inj]
  split <;> simp_all

@[simp] theorem Memory.read_nil (a : Word) : Memory.read [] a = Config.initMem a := rfl

/-! ### The canonical form -/

theorem Memory.mem_insert {m : Memory} {a : Nat} {v : Word} {c : Nat × Word} (h : c ∈ m.insert a v) :
    c = (a, v) ∨ c ∈ m := by
  induction m with
  | nil => simpa [Memory.insert] using h
  | cons d rest ih =>
    obtain ⟨k, w⟩ := d
    simp only [Memory.insert] at h
    split at h
    · simpa using h
    · split at h
      · rcases List.mem_cons.1 h with h | h
        · exact .inl h
        · exact .inr (List.mem_cons_of_mem _ h)
      · rcases List.mem_cons.1 h with h | h
        · exact .inr (h ▸ List.mem_cons_self)
        · exact (ih h).imp_right (List.mem_cons_of_mem _)

theorem Memory.insert_wf {m : Memory} {a : Nat} (v : Word) (hm : m.wf) (ha : a < 65536) : (m.insert a v).wf := by
  refine ⟨?_, fun c hc => ?_⟩
  · obtain ⟨hp, -⟩ := hm
    induction m with
    | nil => simp [Memory.insert]
    | cons d rest ih =>
      obtain ⟨k, w⟩ := d
      obtain ⟨hk, hrest⟩ := List.pairwise_cons.1 hp
      simp only [Memory.insert]
      split
      · refine List.pairwise_cons.2 ⟨fun c hc => ?_, hp⟩
        rcases List.mem_cons.1 hc with rfl | hc
        · assumption
        · exact Nat.lt_trans ‹a < k› (hk c hc)
      · split
        · subst_vars
          exact List.pairwise_cons.2 ⟨hk, hrest⟩
        · refine List.pairwise_cons.2 ⟨fun c hc => ?_, ih hrest⟩
          rcases Memory.mem_insert hc with rfl | hc
          · simp only; omega
          · exact hk c hc
  · rcases Memory.mem_insert hc with rfl | hc
    · exact ha
    · exact hm.2 c hc

theorem Memory.write_wf {m : Memory} (a v : Word) (hm : m.wf) : (m.write a v).wf :=
  Memory.insert_wf v hm a.isLt

theorem loadWords_wf {m : Memory} (a : Nat) (bytes : List Byte) (hm : m.wf) : (loadWords m a bytes).wf := by
  induction m, a, bytes using loadWords.induct with
  | case1 m a first second rest ha ih =>
    simpa [loadWords, ha] using ih (Memory.insert_wf _ hm ha)
  | case2 m a first second rest ha => simpa [loadWords, ha] using hm
  | case3 m a b => exact hm
  | case4 m a => exact hm

theorem loadImage_wf {m : Memory} (bytes : List Byte) (hm : m.wf) : (loadImage m bytes).wf := by
  unfold loadImage
  split
  · exact loadWords_wf _ _ hm
  · exact hm
  · exact hm

theorem loadImages_wf {m : Memory} (images : List (List Byte)) (hm : m.wf) : (loadImages m images).wf := by
  induction images generalizing m with
  | nil => exact hm
  | cons bytes rest ih => exact ih (loadImage_wf bytes hm)

/-! ### The boot from image files (70_reset_and_hazards.md R191, R192) -/

@[simp] theorem loadFile_some (m : Memory) (bytes : List Byte) : loadFile m (some bytes) = (.loaded, loadImage m bytes) := rfl
@[simp] theorem loadFile_none (m : Memory) : loadFile m none = (.failed, m) := rfl

/-- Files that were all opened: the loading is that of their images. -/
theorem loadFiles_map_some (m : Memory) (images : List (List Byte)) :
    loadFiles m (images.map some) = (.loaded, loadImages m images) := by
  induction images generalizing m with
  | nil => rfl
  | cons bytes rest ih => exact ih (loadImage m bytes)

/-- The loading is reported as done only if every file was opened. -/
theorem eq_map_some_of_loadFiles {m m' : Memory} {files : List (Option (List Byte))}
    (h : loadFiles m files = (.loaded, m')) : ∃ images : List (List Byte), files = images.map some := by
  induction files generalizing m with
  | nil => exact ⟨[], rfl⟩
  | cons file rest ih =>
    cases file with
    | none => cases h
    | some bytes =>
      obtain ⟨images, rfl⟩ := ih (m := loadImage m bytes) h
      exact ⟨bytes :: images, rfl⟩

/-- Everything a boot can give: the launch state of images that were all loaded. -/
theorem State.eq_launch_of_boot {files : List (Option (List Byte))} {s : State} (h : State.boot files = some s) :
    ∃ images : List (List Byte), files = images.map some ∧ s = State.launch images := by
  unfold State.boot at h
  split at h
  · next hl =>
    obtain ⟨images, rfl⟩ := eq_map_some_of_loadFiles hl
    cases (loadFiles_map_some [] images).symm.trans hl
    cases h
    exact ⟨images, rfl, rfl⟩
  · cases h

theorem State.reset_mem_wf : State.reset.mem.wf := by decide

/-! ### Equal memories are equal data -/

theorem Memory.find?_eq_none_of_lt {m : Memory} {a : Nat} (h : ∀ c ∈ m, a < c.1) : m.find? a = none := by
  induction m with
  | nil => rfl
  | cons c rest ih =>
    have ha : a ≠ c.1 := Nat.ne_of_lt (h c List.mem_cons_self)
    simp [Memory.find?, ha, ih fun d hd => h d (List.mem_cons_of_mem _ hd)]

theorem Memory.ext_of_wf {m m' : Memory} (hm : m.wf) (hm' : m'.wf) (h : ∀ a, m.find? a = m'.find? a) : m = m' := by
  obtain ⟨hp, -⟩ := hm
  obtain ⟨hp', -⟩ := hm'
  induction m generalizing m' with
  | nil =>
    cases m' with
    | nil => rfl
    | cons c rest => simpa [Memory.find?] using h c.1
  | cons c rest ih =>
    cases m' with
    | nil => simpa [Memory.find?] using (h c.1).symm
    | cons c' rest' =>
      obtain ⟨k, w⟩ := c
      obtain ⟨k', w'⟩ := c'
      obtain ⟨hk, hrest⟩ := List.pairwise_cons.1 hp
      obtain ⟨hk', hrest'⟩ := List.pairwise_cons.1 hp'
      have head : k = k' := by
        rcases Nat.lt_trichotomy k k' with hlt | heq | hlt
        · have := h k
          rw [Memory.find?_eq_none_of_lt (m := (k', w') :: rest') (by
            intro c hc
            rcases List.mem_cons.1 hc with rfl | hc
            · exact hlt
            · exact Nat.lt_trans hlt (hk' c hc))] at this
          simp [Memory.find?] at this
        · exact heq
        · have := h k'
          rw [Memory.find?_eq_none_of_lt (m := (k, w) :: rest) (by
            intro c hc
            rcases List.mem_cons.1 hc with rfl | hc
            · exact hlt
            · exact Nat.lt_trans hlt (hk c hc))] at this
          simp [Memory.find?] at this
      subst head
      have hw : w = w' := by simpa [Memory.find?] using h k
      subst hw
      congr 1
      refine ih (m' := rest') (fun a => ?_) hrest hrest'
      by_cases ha : a = k
      · subst ha
        rw [Memory.find?_eq_none_of_lt hk, Memory.find?_eq_none_of_lt hk']
      · simpa [Memory.find?, ha] using h a

end Sys2Proof.Machine
end

