-- ==== Sys2Proof/Laws/State.lean ====
section
/-! SUPPORT. What each update of the state does to each field, so that no proof unfolds a record update. -/

namespace Sys2Proof.Machine

/-! ### setReg -/

@[simp] theorem State.setReg_pc (s : State) (r : RegIdx) (v : Word) : (s.setReg r v).pc = s.pc := rfl
@[simp] theorem State.setReg_cond (s : State) (r : RegIdx) (v : Word) : (s.setReg r v).cond = s.cond := rfl
@[simp] theorem State.setReg_run (s : State) (r : RegIdx) (v : Word) : (s.setReg r v).run = s.run := rfl
@[simp] theorem State.setReg_mem (s : State) (r : RegIdx) (v : Word) : (s.setReg r v).mem = s.mem := rfl
@[simp] theorem State.setReg_conout (s : State) (r : RegIdx) (v : Word) : (s.setReg r v).conout = s.conout := rfl
@[simp] theorem State.setReg_conin (s : State) (r : RegIdx) (v : Word) : (s.setReg r v).conin = s.conin := rfl

/-! ### setPc -/

@[simp] theorem State.setPc_regs (s : State) (a : Word) : (s.setPc a).regs = s.regs := rfl
@[simp] theorem State.setPc_pc (s : State) (a : Word) : (s.setPc a).pc = a := rfl
@[simp] theorem State.setPc_cond (s : State) (a : Word) : (s.setPc a).cond = s.cond := rfl
@[simp] theorem State.setPc_run (s : State) (a : Word) : (s.setPc a).run = s.run := rfl
@[simp] theorem State.setPc_mem (s : State) (a : Word) : (s.setPc a).mem = s.mem := rfl
@[simp] theorem State.setPc_conout (s : State) (a : Word) : (s.setPc a).conout = s.conout := rfl
@[simp] theorem State.setPc_conin (s : State) (a : Word) : (s.setPc a).conin = s.conin := rfl
@[simp] theorem State.setPc_reg (s : State) (a : Word) (q : RegIdx) : (s.setPc a).reg q = s.reg q := rfl

/-! ### advance -/

@[simp] theorem State.advance_regs (s : State) : (s.advance).regs = s.regs := rfl
@[simp] theorem State.advance_pc (s : State) : (s.advance).pc = s.pc + 1#16 := rfl
@[simp] theorem State.advance_cond (s : State) : (s.advance).cond = s.cond := rfl
@[simp] theorem State.advance_run (s : State) : (s.advance).run = s.run := rfl
@[simp] theorem State.advance_mem (s : State) : (s.advance).mem = s.mem := rfl
@[simp] theorem State.advance_conout (s : State) : (s.advance).conout = s.conout := rfl
@[simp] theorem State.advance_conin (s : State) : (s.advance).conin = s.conin := rfl
@[simp] theorem State.advance_reg (s : State) (q : RegIdx) : (s.advance).reg q = s.reg q := rfl

/-! ### halt -/

@[simp] theorem State.halt_regs (s : State) : (s.halt).regs = s.regs := rfl
@[simp] theorem State.halt_pc (s : State) : (s.halt).pc = s.pc := rfl
@[simp] theorem State.halt_cond (s : State) : (s.halt).cond = s.cond := rfl
@[simp] theorem State.halt_run (s : State) : (s.halt).run = false := rfl
@[simp] theorem State.halt_mem (s : State) : (s.halt).mem = s.mem := rfl
@[simp] theorem State.halt_conout (s : State) : (s.halt).conout = s.conout := rfl
@[simp] theorem State.halt_conin (s : State) : (s.halt).conin = s.conin := rfl
@[simp] theorem State.halt_reg (s : State) (q : RegIdx) : (s.halt).reg q = s.reg q := rfl

/-! ### store -/

@[simp] theorem State.store_regs (s : State) (a v : Word) : (s.store a v).regs = s.regs := rfl
@[simp] theorem State.store_pc (s : State) (a v : Word) : (s.store a v).pc = s.pc := rfl
@[simp] theorem State.store_cond (s : State) (a v : Word) : (s.store a v).cond = s.cond := rfl
@[simp] theorem State.store_run (s : State) (a v : Word) : (s.store a v).run = s.run := rfl
@[simp] theorem State.store_mem (s : State) (a v : Word) : (s.store a v).mem = s.mem.write a v := rfl
@[simp] theorem State.store_conout (s : State) (a v : Word) : (s.store a v).conout = s.conout := rfl
@[simp] theorem State.store_conin (s : State) (a v : Word) : (s.store a v).conin = s.conin := rfl
@[simp] theorem State.store_reg (s : State) (a v : Word) (q : RegIdx) : (s.store a v).reg q = s.reg q := rfl

/-! ### emit -/

@[simp] theorem State.emit_regs (s : State) (cs : List Byte) : (s.emit cs).regs = s.regs := rfl
@[simp] theorem State.emit_pc (s : State) (cs : List Byte) : (s.emit cs).pc = s.pc := rfl
@[simp] theorem State.emit_cond (s : State) (cs : List Byte) : (s.emit cs).cond = s.cond := rfl
@[simp] theorem State.emit_run (s : State) (cs : List Byte) : (s.emit cs).run = s.run := rfl
@[simp] theorem State.emit_mem (s : State) (cs : List Byte) : (s.emit cs).mem = s.mem := rfl
@[simp] theorem State.emit_conout (s : State) (cs : List Byte) : (s.emit cs).conout = s.conout ++ cs := rfl
@[simp] theorem State.emit_conin (s : State) (cs : List Byte) : (s.emit cs).conin = s.conin := rfl
@[simp] theorem State.emit_reg (s : State) (cs : List Byte) (q : RegIdx) : (s.emit cs).reg q = s.reg q := rfl

/-! ### setcc -/

@[simp] theorem State.setcc_regs (s : State) (v : Word) : (s.setcc v).regs = s.regs := rfl
@[simp] theorem State.setcc_pc (s : State) (v : Word) : (s.setcc v).pc = s.pc := rfl
@[simp] theorem State.setcc_cond (s : State) (v : Word) : (s.setcc v).cond = ccOf v := rfl
@[simp] theorem State.setcc_run (s : State) (v : Word) : (s.setcc v).run = s.run := rfl
@[simp] theorem State.setcc_mem (s : State) (v : Word) : (s.setcc v).mem = s.mem := rfl
@[simp] theorem State.setcc_conout (s : State) (v : Word) : (s.setcc v).conout = s.conout := rfl
@[simp] theorem State.setcc_conin (s : State) (v : Word) : (s.setcc v).conin = s.conin := rfl
@[simp] theorem State.setcc_reg (s : State) (v : Word) (q : RegIdx) : (s.setcc v).reg q = s.reg q := rfl

/-! ### writeResult -/

@[simp] theorem State.writeResult_pc (s : State) (r : RegIdx) (v : Word) : (s.writeResult r v).pc = s.pc := rfl
@[simp] theorem State.writeResult_cond (s : State) (r : RegIdx) (v : Word) : (s.writeResult r v).cond = ccOf v := rfl
@[simp] theorem State.writeResult_run (s : State) (r : RegIdx) (v : Word) : (s.writeResult r v).run = s.run := rfl
@[simp] theorem State.writeResult_mem (s : State) (r : RegIdx) (v : Word) : (s.writeResult r v).mem = s.mem := rfl
@[simp] theorem State.writeResult_conout (s : State) (r : RegIdx) (v : Word) : (s.writeResult r v).conout = s.conout := rfl
@[simp] theorem State.writeResult_conin (s : State) (r : RegIdx) (v : Word) : (s.writeResult r v).conin = s.conin := rfl

/-! ### setConin -/

@[simp] theorem State.setConin_regs (s : State) (cs : List Byte) : (s.setConin cs).regs = s.regs := rfl
@[simp] theorem State.setConin_pc (s : State) (cs : List Byte) : (s.setConin cs).pc = s.pc := rfl
@[simp] theorem State.setConin_cond (s : State) (cs : List Byte) : (s.setConin cs).cond = s.cond := rfl
@[simp] theorem State.setConin_run (s : State) (cs : List Byte) : (s.setConin cs).run = s.run := rfl
@[simp] theorem State.setConin_mem (s : State) (cs : List Byte) : (s.setConin cs).mem = s.mem := rfl
@[simp] theorem State.setConin_conout (s : State) (cs : List Byte) : (s.setConin cs).conout = s.conout := rfl
@[simp] theorem State.setConin_conin (s : State) (cs : List Byte) : (s.setConin cs).conin = cs := rfl
@[simp] theorem State.setConin_reg (s : State) (cs : List Byte) (q : RegIdx) : (s.setConin cs).reg q = s.reg q := rfl

/-! ### supplyInput -/

@[simp] theorem State.supplyInput_regs (s : State) (cs : List Byte) : (s.supplyInput cs).regs = s.regs := rfl
@[simp] theorem State.supplyInput_pc (s : State) (cs : List Byte) : (s.supplyInput cs).pc = s.pc := rfl
@[simp] theorem State.supplyInput_cond (s : State) (cs : List Byte) : (s.supplyInput cs).cond = s.cond := rfl
@[simp] theorem State.supplyInput_run (s : State) (cs : List Byte) : (s.supplyInput cs).run = s.run := rfl
@[simp] theorem State.supplyInput_mem (s : State) (cs : List Byte) : (s.supplyInput cs).mem = s.mem := rfl
@[simp] theorem State.supplyInput_conout (s : State) (cs : List Byte) : (s.supplyInput cs).conout = s.conout := rfl
@[simp] theorem State.supplyInput_conin (s : State) (cs : List Byte) : (s.supplyInput cs).conin = s.conin ++ cs := rfl
@[simp] theorem State.supplyInput_reg (s : State) (cs : List Byte) (q : RegIdx) : (s.supplyInput cs).reg q = s.reg q := rfl

@[simp] theorem State.emit_nil (s : State) : s.emit [] = s := by
  cases s; simp [State.emit]

theorem State.emit_append (s : State) (cs ds : List Byte) : s.emit (cs ++ ds) = (s.emit cs).emit ds := by
  cases s; simp [State.emit]

theorem State.setConin_emit (s : State) (cs ds : List Byte) : (s.setConin cs).emit ds = (s.emit ds).setConin cs := rfl

/-! ### conFlush -/

@[simp] theorem State.conFlush_eq (s : State) : s.conFlush = s := rfl

/-! ### Writing a general register -/

@[simp] theorem State.setReg_reg (s : State) (r : RegIdx) (v : Word) (q : RegIdx) :
    (s.setReg r v).reg q = if q = r then v else s.reg q := by
  simp only [State.reg, State.setReg, Vector.getElem_set, BitVec.toNat_inj, eq_comm]

@[simp] theorem State.writeResult_reg (s : State) (r : RegIdx) (v : Word) (q : RegIdx) :
    (s.writeResult r v).reg q = if q = r then v else s.reg q :=
  State.setReg_reg s r v q

/-! ### Reset -/

@[simp] theorem State.reset_reg (r : RegIdx) : State.reset.reg r = 0x0000#16 := by
  simp [State.reg, State.reset]

@[simp] theorem State.reset_mem : State.reset.mem = [] := rfl

end Sys2Proof.Machine
end

