-- ==== Sys2Proof/Laws/Ops.lean ====
section
/-! SUPPORT. One lemma for each shared operation that says everything it can do, and the spec's formulas for the extensions and
the flag updater. -/

namespace Sys2Proof.Machine

/-! ### Console input (00_scope.md R16) -/

theorem State.conRead_of_nil {s : State} (h : s.conin = []) : s.conRead = none := by
  simp [State.conRead, h]

theorem State.conRead_of_cons {s : State} {c : Byte} {rest : List Byte} (h : s.conin = c :: rest) :
    s.conRead = some (c, s.setConin rest) := by
  simp [State.conRead, h]

/-! ### Bytes of a word (20_memory.md R43) -/

theorem joinBytes_toNat (high low : Byte) : (joinBytes high low).toNat = 256 * high.toNat + low.toNat := by
  have hh := high.isLt
  have hl := low.isLt
  have eh : high.toNat <<< 8 < 2 ^ 16 := by rw [Nat.shiftLeft_eq]; omega
  rw [joinBytes, BitVec.toNat_or, BitVec.toNat_shiftLeft, BitVec.toNat_setWidth_of_le (by decide),
    BitVec.toNat_setWidth_of_le (by decide), Nat.mod_eq_of_lt eh, ← Nat.shiftLeft_add_eq_or_of_lt hl, Nat.shiftLeft_eq]
  omega

theorem lowByte_toNat (w : Word) : (lowByte w).toNat = w.toNat % 256 := by
  simp [lowByte]

theorem highByte_toNat (w : Word) : (highByte w).toNat = w.toNat / 256 := by
  have h := w.isLt
  simp only [highByte, BitVec.extractLsb'_toNat, Nat.shiftRight_eq_div_pow, Nat.reducePow]
  omega

/-! ### Scanning a string (44_trap.md R147) -/

/-- A scan that ends found the first zero word within its bound, and returns the words before it in order. -/
theorem Memory.scan_eq_some (m : Memory) (n : Nat) (a : Word) (ws : List Word) :
    m.scan n a = some ws ↔
      ws.length < n ∧ m.read (a + BitVec.ofNat 16 ws.length) = 0#16 ∧
        ∀ j (h : j < ws.length), ws[j] = m.read (a + BitVec.ofNat 16 j) ∧ ws[j] ≠ 0#16 := by
  induction n generalizing a ws with
  | zero => simp [Memory.scan]
  | succ k ih =>
    have shift : ∀ j : Nat, a + 1#16 + BitVec.ofNat 16 j = a + BitVec.ofNat 16 (j + 1) := fun j => by
      rw [BitVec.add_assoc, Nat.add_comm j 1, BitVec.ofNat_add]
    simp only [Memory.scan]
    split
    next hz =>
      constructor
      · rintro ⟨⟩
        simpa using hz
      · rintro ⟨-, -, hall⟩
        cases ws with
        | nil => rfl
        | cons w rest =>
          obtain ⟨hw, hne⟩ := hall 0 (by simp)
          exact absurd (hw.trans (by simpa using hz)) hne
    next hnz =>
      simp only [Option.map_eq_some_iff]
      constructor
      · rintro ⟨rest, hrest, rfl⟩
        obtain ⟨hlen, hend, hall⟩ := (ih _ _).1 hrest
        refine ⟨by simpa using hlen, by simpa [shift] using hend, fun j hj => ?_⟩
        cases j with
        | zero => exact ⟨by simp, by simpa using hnz⟩
        | succ j => simpa [shift] using hall j (by simpa using hj)
      · rintro ⟨hlen, hend, hall⟩
        cases ws with
        | nil => exact absurd (by simpa using hend) hnz
        | cons w rest =>
          obtain ⟨hw, -⟩ := hall 0 (by simp)
          refine ⟨rest, (ih _ _).2 ⟨by simpa using hlen, by simpa [shift] using hend, fun j hj => ?_⟩, ?_⟩
          · rw [shift]
            exact hall (j + 1) (by simpa using hj)
          · simpa using hw.symm

/-- A scan that does not end met no zero word within its bound. -/
theorem Memory.scan_eq_none (m : Memory) (n : Nat) (a : Word) :
    m.scan n a = none ↔ ∀ j, j < n → m.read (a + BitVec.ofNat 16 j) ≠ 0#16 := by
  induction n generalizing a with
  | zero => simp [Memory.scan]
  | succ k ih =>
    have shift : ∀ j : Nat, a + 1#16 + BitVec.ofNat 16 j = a + BitVec.ofNat 16 (j + 1) := fun j => by
      rw [BitVec.add_assoc, Nat.add_comm j 1, BitVec.ofNat_add]
    simp only [Memory.scan]
    split
    next hz => exact ⟨nofun, fun h => absurd (by simpa using hz) (h 0 (by omega))⟩
    next hnz =>
      simp only [Option.map_eq_none_iff, ih, shift]
      constructor
      · intro h j hj
        cases j with
        | zero => simpa using hnz
        | succ j => exact h j (by omega)
      · intro h j hj
        exact h (j + 1) (by omega)

/-- The string scan fails to end exactly when no word of memory is zero. -/
theorem State.stringAt_eq_none (s : State) (a : Word) :
    s.stringAt a = none ↔ ∀ b : Word, s.mem.read b ≠ 0#16 := by
  rw [State.stringAt, Memory.scan_eq_none]
  constructor
  · intro h b
    have := h (b - a).toNat (b - a).isLt
    rwa [BitVec.ofNat_toNat, BitVec.setWidth_eq, BitVec.add_comm, BitVec.sub_add_cancel] at this
  · exact fun h j _ => h _

/-! ### The flag updater (10_state.md R26) -/

theorem ccOf_zero : ccOf 0#16 = 0b010#3 := rfl

theorem ccOf_negative {v : Word} (h : v.getLsbD 15 = true) : ccOf v = 0b100#3 := by
  have h0 : v ≠ 0#16 := by rintro rfl; simp at h
  simp only [ccOf, h0, if_false, h, if_true, condN]

theorem ccOf_positive {v : Word} (h0 : v ≠ 0#16) (h : v.getLsbD 15 = false) : ccOf v = 0b001#3 := by
  simp only [ccOf, h0, if_false, h, condP, Bool.false_eq_true]

/-- The updater sets exactly one flag (R25). -/
theorem ccOf_cases (v : Word) : ccOf v = 0b010#3 ∨ ccOf v = 0b100#3 ∨ ccOf v = 0b001#3 := by
  unfold ccOf
  split
  · exact .inl rfl
  · split
    · exact .inr (.inl rfl)
    · exact .inr (.inr rfl)

/-! ### A step -/

theorem step_running {s : State} (h : s.run = true) : step s = exec (decode s.fetch) s := by
  simp [step, h]

theorem step_halted {s : State} (h : s.run = false) : step s = .fault .halted := by
  simp [step, h]

end Sys2Proof.Machine
end

