-- ==== Sys2Proof/Laws/Exec.lean ====
section
/-! SUPPORT. Everything an instruction can do, said once: the cases of GETC, IN, PUTS and PUTSP, and the shapes of a next state. -/

namespace Sys2Proof.Machine

/-! ### GETC and IN: held, or a character is read (44_trap.md R136, R139) -/

theorem execGetc_of_nil {s : State} (h : s.conin = []) : execGetc s = .next s := by
  rw [execGetc, State.conRead_of_nil (s := s.advance) h]

theorem execGetc_of_cons {s : State} {c : Byte} {rest : List Byte} (h : s.conin = c :: rest) :
    execGetc s = .next ((s.advance.setConin rest).setReg 0#3 (zext8 c)) := by
  rw [execGetc, State.conRead_of_cons (s := s.advance) h]

theorem execInTrap_of_nil {s : State} (h : s.conin = []) : execInTrap s = .next s := by
  rw [execInTrap, State.conRead_of_nil (s := s.advance.emit Config.prompt) h]

theorem execInTrap_of_cons {s : State} {c : Byte} {rest : List Byte} (h : s.conin = c :: rest) :
    execInTrap s =
      .next ((((s.advance.emit Config.prompt).setConin rest).emit [c]).setReg 0#3 (zext8 c)) := by
  rw [execInTrap, State.conRead_of_cons (s := s.advance.emit Config.prompt) h]
  rfl

/-! ### PUTS and PUTSP: the string ends, or the trap does not (44_trap.md R138, R140, R147) -/

theorem execPuts_of_some {s : State} {ws : List Word} (h : s.stringAt (s.reg 0#3) = some ws) :
    execPuts s = .next (s.advance.emit (ws.map lowByte)) := by
  have h' : s.advance.stringAt (s.advance.reg 0#3) = some ws := h
  simp only [execPuts, h', State.conFlush_eq]

theorem execPuts_of_none {s : State} (h : s.stringAt (s.reg 0#3) = none) : execPuts s = .fault .endlessString := by
  have h' : s.advance.stringAt (s.advance.reg 0#3) = none := h
  simp only [execPuts, h']

theorem execPutsp_of_some {s : State} {ws : List Word} (h : s.stringAt (s.reg 0#3) = some ws) :
    execPutsp s = .next (s.advance.emit (ws.flatMap packedChars)) := by
  have h' : s.advance.stringAt (s.advance.reg 0#3) = some ws := h
  simp only [execPutsp, h', State.conFlush_eq]

theorem execPutsp_of_none {s : State} (h : s.stringAt (s.reg 0#3) = none) : execPutsp s = .fault .endlessString := by
  have h' : s.advance.stringAt (s.advance.reg 0#3) = none := h
  simp only [execPutsp, h']

/-- The string at R0 when the first zero word stands `k` words on. -/
theorem State.stringAt_eq_range {s : State} {a : Word} {k : Nat} (hk : k < 65536)
    (hne : ∀ j, j < k → s.mem.read (a + BitVec.ofNat 16 j) ≠ 0#16)
    (hz : s.mem.read (a + BitVec.ofNat 16 k) = 0#16) :
    s.stringAt a = some ((List.range k).map fun j => s.mem.read (a + BitVec.ofNat 16 j)) := by
  rw [State.stringAt, Memory.scan_eq_some]
  refine ⟨by simpa using hk, by simpa using hz, fun j hj => ?_⟩
  simpa using hne j (by simpa using hj)

/-! ### The shapes of a next state -/

/-- What an instruction's next state can be, and which instructions it is that of. -/
inductive ExecShape (i : Instr) (s : State) : State → Prop where
  /-- GETC or IN waits. -/
  | held (hi : i.readsInput = true) (hs : s.conin = []) (hf : i.flagDest = none) (hm : i.storeTarget s = none)
      (hh : i ≠ .halt) : ExecShape i s s
  /-- One of the seven flag-affecting instructions. -/
  | result (dr : RegIdx) (v : Word) (hf : i.flagDest = some dr) (hd : i.dest = some dr) (hm : i.storeTarget s = none)
      (hc : i.isControl = false) (hi : i.readsInput = false) (hp : i.prints = false) (hh : i ≠ .halt) :
      ExecShape i s (s.advance.writeResult dr v)
  /-- ST, STI or STR. -/
  | stored (a : Word) (r : RegIdx) (hm : i.storeTarget s = some (a, r)) (hd : i.dest = none) (hf : i.flagDest = none)
      (hc : i.isControl = false) (hi : i.readsInput = false) (hp : i.prints = false) (hh : i ≠ .halt) :
      ExecShape i s (s.advance.store a (s.reg r))
  /-- BR or JMP. -/
  | jump (a : Word) (hc : i.isControl = true) (hd : i.dest = none) (hf : i.flagDest = none) (hm : i.storeTarget s = none)
      (hi : i.readsInput = false) (hp : i.prints = false) (hh : i ≠ .halt) : ExecShape i s (s.advance.setPc a)
  /-- JSR or JSRR. -/
  | link (a : Word) (hc : i.isControl = true) (hd : i.dest = some 7#3) (hf : i.flagDest = none)
      (hm : i.storeTarget s = none) (hi : i.readsInput = false) (hp : i.prints = false) (hh : i ≠ .halt) :
      ExecShape i s ((s.advance.setReg 7#3 (s.pc + 1#16)).setPc a)
  /-- RTI, RES, TRAP with an unrecognised vector. -/
  | noOp (hd : i.dest = none) (hf : i.flagDest = none) (hm : i.storeTarget s = none) (hc : i.isControl = false)
      (hi : i.readsInput = false) (hp : i.prints = false) (hh : i ≠ .halt) : ExecShape i s s.advance
  /-- OUT, PUTS or PUTSP. -/
  | print (cs : List Byte) (hp : i.prints = true) (hd : i.dest = none) (hf : i.flagDest = none)
      (hm : i.storeTarget s = none) (hc : i.isControl = false) (hi : i.readsInput = false) (hh : i ≠ .halt) :
      ExecShape i s (s.advance.emit cs)
  /-- HALT. -/
  | halt (hh : i = .halt) : ExecShape i s (s.advance.emit Config.haltNotice).halt
  /-- GETC or IN reads the character `c`, having printed `cs` (nothing for GETC). -/
  | input (c : Byte) (rest cs : List Byte) (hs : s.conin = c :: rest) (hi : i.readsInput = true) (hd : i.dest = some 0#3)
      (hf : i.flagDest = none) (hm : i.storeTarget s = none) (hc : i.isControl = false)
      (hp : i.prints = false → cs = []) (hh : i ≠ .halt) :
      ExecShape i s (((s.advance.emit cs).setConin rest).setReg 0#3 (zext8 c))

/-- Every next state of every instruction has one of the shapes. -/
theorem exec_shape {i : Instr} {s t : State} (h : exec i s = .next t) : ExecShape i s t := by
  cases i
  case add => cases h; exact .result _ _ rfl rfl rfl rfl rfl rfl nofun
  case addi => cases h; exact .result _ _ rfl rfl rfl rfl rfl rfl nofun
  case and => cases h; exact .result _ _ rfl rfl rfl rfl rfl rfl nofun
  case andi => cases h; exact .result _ _ rfl rfl rfl rfl rfl rfl nofun
  case not => cases h; exact .result _ _ rfl rfl rfl rfl rfl rfl nofun
  case br n z p offset9 =>
    simp only [exec, execBr] at h
    split at h
    · cases h; exact .jump _ rfl rfl rfl rfl rfl rfl nofun
    · cases h; exact .jump (s.pc + 1#16) rfl rfl rfl rfl rfl rfl nofun
  case jmp => cases h; exact .jump _ rfl rfl rfl rfl rfl rfl nofun
  case jsr => cases h; exact .link _ rfl rfl rfl rfl rfl rfl nofun
  case jsrr => cases h; exact .link _ rfl rfl rfl rfl rfl rfl nofun
  case ld => cases h; exact .result _ _ rfl rfl rfl rfl rfl rfl nofun
  case ldi => cases h; exact .result _ _ rfl rfl rfl rfl rfl rfl nofun
  case ldr => cases h; exact .result _ _ rfl rfl rfl rfl rfl rfl nofun
  case lea => cases h; exact .result _ _ rfl rfl rfl rfl rfl rfl nofun
  case st => cases h; exact .stored _ _ rfl rfl rfl rfl rfl rfl nofun
  case sti => cases h; exact .stored _ _ rfl rfl rfl rfl rfl rfl nofun
  case str => cases h; exact .stored _ _ rfl rfl rfl rfl rfl rfl nofun
  case rti => cases h; exact .noOp rfl rfl rfl rfl rfl rfl nofun
  case res => cases h; exact .noOp rfl rfl rfl rfl rfl rfl nofun
  case getc =>
    cases hs : s.conin with
    | nil => cases (execGetc_of_nil hs).symm.trans h; exact .held rfl hs rfl rfl nofun
    | cons c rest =>
      cases (execGetc_of_cons hs).symm.trans h
      have hshape := ExecShape.input (i := .getc) c rest [] hs rfl rfl rfl rfl rfl (fun _ => rfl) nofun
      rwa [State.emit_nil] at hshape
  case out => cases h; exact .print _ rfl rfl rfl rfl rfl rfl nofun
  case puts =>
    cases hs : s.stringAt (s.reg 0#3) with
    | none => cases (execPuts_of_none hs).symm.trans h
    | some ws => cases (execPuts_of_some hs).symm.trans h; exact .print _ rfl rfl rfl rfl rfl rfl nofun
  case inTrap =>
    cases hs : s.conin with
    | nil => cases (execInTrap_of_nil hs).symm.trans h; exact .held rfl hs rfl rfl nofun
    | cons c rest =>
      cases (execInTrap_of_cons hs).symm.trans h
      have hshape := ExecShape.input (i := .inTrap) c rest (Config.prompt ++ [c]) hs rfl rfl rfl rfl rfl nofun nofun
      rwa [State.emit_append, ← State.setConin_emit] at hshape
  case putsp =>
    cases hs : s.stringAt (s.reg 0#3) with
    | none => cases (execPutsp_of_none hs).symm.trans h
    | some ws => cases (execPutsp_of_some hs).symm.trans h; exact .print _ rfl rfl rfl rfl rfl rfl nofun
  case halt => cases h; exact .halt rfl
  case trapOther => cases h; exact .noOp rfl rfl rfl rfl rfl rfl nofun

end Sys2Proof.Machine
end

