-- ==== Sys2Proof/Laws/PerInstr.lean ====
section
/-! SUPPORT. Statements made for every instruction, one lemma per constructor. -/

namespace Sys2Proof.Laws

/-- RowMatch: the encoder's word lies in the instruction's own row of spec/opcode_table.json (30_encoding.md R71). -/
def RowMatch.Statement (i : Instr) : Prop := i.row.applies (encode i) = true

theorem row_pattern_masked (i : Instr) : i.row.pattern &&& i.row.mask = i.row.pattern := by
  cases i <;> (simp only [Instr.row]; decide)

/-- What is to be shown of each bit the row fixes. -/
theorem RowMatch.of_bits {i : Instr}
    (h : ∀ k : Fin 16, i.row.mask.getLsbD k = true → (encode i).getLsbD k = i.row.pattern.getLsbD k) :
    RowMatch.Statement i := by
  refine beq_iff_eq.2 (word_ext fun k => ?_)
  have hk := h k
  rw [← row_pattern_masked i, BitVec.getLsbD_and, BitVec.getLsbD_and]
  cases hm : i.row.mask.getLsbD k
  · simp only [Bool.and_false]
  · rw [hk hm]

theorem RowMatch.add (dr sr1 sr2 : RegIdx) : RowMatch.Statement (.add dr sr1 sr2) := by
  refine RowMatch.of_bits ?_
  simp only [Fin.forall_fin_succ, Instr.row]
  simp [encode, Opcode.word, Opcode.bits]

theorem RowMatch.addi (dr sr1 : RegIdx) (imm5 : BitVec 5) : RowMatch.Statement (.addi dr sr1 imm5) := by
  refine RowMatch.of_bits ?_
  simp only [Fin.forall_fin_succ, Instr.row]
  simp [encode, Opcode.word, Opcode.bits]

theorem RowMatch.and (dr sr1 sr2 : RegIdx) : RowMatch.Statement (.and dr sr1 sr2) := by
  refine RowMatch.of_bits ?_
  simp only [Fin.forall_fin_succ, Instr.row]
  simp [encode, Opcode.word, Opcode.bits]

theorem RowMatch.andi (dr sr1 : RegIdx) (imm5 : BitVec 5) : RowMatch.Statement (.andi dr sr1 imm5) := by
  refine RowMatch.of_bits ?_
  simp only [Fin.forall_fin_succ, Instr.row]
  simp [encode, Opcode.word, Opcode.bits]

theorem RowMatch.not (dr sr : RegIdx) : RowMatch.Statement (.not dr sr) := by
  refine RowMatch.of_bits ?_
  simp only [Fin.forall_fin_succ, Instr.row]
  simp [encode, Opcode.word, Opcode.bits]

theorem RowMatch.br (n z p : Bool) (offset9 : BitVec 9) : RowMatch.Statement (.br n z p offset9) := by
  refine RowMatch.of_bits ?_
  simp only [Fin.forall_fin_succ, Instr.row]
  simp [encode, Opcode.word, Opcode.bits]

theorem RowMatch.jmp (baseR : RegIdx) : RowMatch.Statement (.jmp baseR) := by
  refine RowMatch.of_bits ?_
  simp only [Fin.forall_fin_succ, Instr.row]
  simp [encode, Opcode.word, Opcode.bits]

theorem RowMatch.jsr (off11 : BitVec 11) : RowMatch.Statement (.jsr off11) := by
  refine RowMatch.of_bits ?_
  simp only [Fin.forall_fin_succ, Instr.row]
  simp [encode, Opcode.word, Opcode.bits]

theorem RowMatch.jsrr (baseR : RegIdx) : RowMatch.Statement (.jsrr baseR) := by
  refine RowMatch.of_bits ?_
  simp only [Fin.forall_fin_succ, Instr.row]
  simp [encode, Opcode.word, Opcode.bits]

theorem RowMatch.ld (dr : RegIdx) (offset9 : BitVec 9) : RowMatch.Statement (.ld dr offset9) := by
  refine RowMatch.of_bits ?_
  simp only [Fin.forall_fin_succ, Instr.row]
  simp [encode, Opcode.word, Opcode.bits]

theorem RowMatch.ldi (dr : RegIdx) (offset9 : BitVec 9) : RowMatch.Statement (.ldi dr offset9) := by
  refine RowMatch.of_bits ?_
  simp only [Fin.forall_fin_succ, Instr.row]
  simp [encode, Opcode.word, Opcode.bits]

theorem RowMatch.ldr (dr baseR : RegIdx) (offset6 : BitVec 6) : RowMatch.Statement (.ldr dr baseR offset6) := by
  refine RowMatch.of_bits ?_
  simp only [Fin.forall_fin_succ, Instr.row]
  simp [encode, Opcode.word, Opcode.bits]

theorem RowMatch.lea (dr : RegIdx) (offset9 : BitVec 9) : RowMatch.Statement (.lea dr offset9) := by
  refine RowMatch.of_bits ?_
  simp only [Fin.forall_fin_succ, Instr.row]
  simp [encode, Opcode.word, Opcode.bits]

theorem RowMatch.st (sr : RegIdx) (offset9 : BitVec 9) : RowMatch.Statement (.st sr offset9) := by
  refine RowMatch.of_bits ?_
  simp only [Fin.forall_fin_succ, Instr.row]
  simp [encode, Opcode.word, Opcode.bits]

theorem RowMatch.sti (sr : RegIdx) (offset9 : BitVec 9) : RowMatch.Statement (.sti sr offset9) := by
  refine RowMatch.of_bits ?_
  simp only [Fin.forall_fin_succ, Instr.row]
  simp [encode, Opcode.word, Opcode.bits]

theorem RowMatch.str (sr baseR : RegIdx) (offset6 : BitVec 6) : RowMatch.Statement (.str sr baseR offset6) := by
  refine RowMatch.of_bits ?_
  simp only [Fin.forall_fin_succ, Instr.row]
  simp [encode, Opcode.word, Opcode.bits]

theorem RowMatch.rti : RowMatch.Statement .rti := by unfold RowMatch.Statement; decide

theorem RowMatch.res : RowMatch.Statement .res := by unfold RowMatch.Statement; decide

theorem RowMatch.getc : RowMatch.Statement .getc := by unfold RowMatch.Statement; decide

theorem RowMatch.out : RowMatch.Statement .out := by unfold RowMatch.Statement; decide

theorem RowMatch.puts : RowMatch.Statement .puts := by unfold RowMatch.Statement; decide

theorem RowMatch.inTrap : RowMatch.Statement .inTrap := by unfold RowMatch.Statement; decide

theorem RowMatch.putsp : RowMatch.Statement .putsp := by unfold RowMatch.Statement; decide

theorem RowMatch.halt : RowMatch.Statement .halt := by unfold RowMatch.Statement; decide

theorem RowMatch.trapOther (trapvect8 : Byte) : RowMatch.Statement (.trapOther trapvect8) := by
  refine RowMatch.of_bits ?_
  simp only [Fin.forall_fin_succ, Instr.row]
  simp [encode, Opcode.word, Opcode.bits]

end Sys2Proof.Laws
end

