-- ==== Sys2Proof/Tests/Slice0.lean ====
section
/-! SUPPORT. The model's own tests: the decoder on words written out from the spec's formats, single steps with the results of
spec/95_test_vectors.md, and a witness for every statement with hypotheses. -/

namespace Sys2Proof.Tests

open Sys2Proof.Machine

/-! ### Helpers -/

/-- What is looked at after a step; nothing if the step gives no next state. -/
def after {α : Type} (o : Host.Outcome State Fault Refusal) (f : State → α) : Option α :=
  match o with
  | .next s => some (f s)
  | .fault _ => none
  | .refused _ => none

/-- A machine at pc 0x3000 with the given memory, registers, COND and CONIN (the defaults of 95_test_vectors.md). -/
def start (mem : Memory) (regs : List (RegIdx × Word)) (cond : BitVec 3) (conin : List Byte) : State :=
  regs.foldl (fun s r => s.setReg r.1 r.2) { State.reset with mem := mem, cond := cond, conin := conin }

/-- The word at 0x3000, and nothing else listed. -/
def one (w : Word) : Memory := [(0x3000, w)]

/-! ### Well-formed terms: the one check, a vector of a built-in operation in TRAP_other -/

theorem test_wf_refuses_first_builtin_vector : (Instr.trapOther 0x20#8).wf = false := by decide
theorem test_wf_refuses_last_builtin_vector : (Instr.trapOther 0x25#8).wf = false := by decide
theorem test_wf_accepts_neighbours :
    (Instr.trapOther 0x1F#8).wf = true ∧ (Instr.trapOther 0x26#8).wf = true ∧ (Instr.add 7#3 7#3 7#3).wf = true := by decide

/-! ### Decoding: a word of every constructor, written out field by field from 30_encoding.md R62, R63 -/

theorem test_decode_add : decode 0b0001_011_001_0_00_010#16 = .add 3#3 1#3 2#3 := by decide
theorem test_decode_add_unused : decode 0b0001_011_001_0_11_010#16 = .add 3#3 1#3 2#3 := by decide
theorem test_decode_addi : decode 0b0001_001_010_1_10000#16 = .addi 1#3 2#3 0b10000#5 := by decide
theorem test_decode_and : decode 0b0101_100_101_0_00_110#16 = .and 4#3 5#3 6#3 := by decide
theorem test_decode_andi : decode 0b0101_010_001_1_01111#16 = .andi 2#3 1#3 0b01111#5 := by decide
theorem test_decode_not : decode 0b1001_010_001_000000#16 = .not 2#3 1#3 := by decide
theorem test_decode_br : decode 0b0000_1_0_1_111111110#16 = .br true false true 0b111111110#9 := by decide
theorem test_decode_br_z : decode 0b0000_0_1_0_000000010#16 = .br false true false 2#9 := by decide
theorem test_decode_jmp : decode 0b1100_111_010_111111#16 = .jmp 2#3 := by decide
theorem test_decode_ret : decode 0xC1C0#16 = .jmp 7#3 := by decide
theorem test_decode_jsr : decode 0b0100_1_10000000000#16 = .jsr 0b10000000000#11 := by decide
theorem test_decode_jsrr : decode 0b0100_0_11_010_111111#16 = .jsrr 2#3 := by decide
theorem test_decode_ld : decode 0b0010_001_100000000#16 = .ld 1#3 0b100000000#9 := by decide
theorem test_decode_ldi : decode 0b1010_010_000000001#16 = .ldi 2#3 1#9 := by decide
theorem test_decode_ldr : decode 0b0110_111_110_111111#16 = .ldr 7#3 6#3 0b111111#6 := by decide
theorem test_decode_lea : decode 0b1110_000_011111111#16 = .lea 0#3 0b011111111#9 := by decide
theorem test_decode_st : decode 0b0011_011_000000100#16 = .st 3#3 4#9 := by decide
theorem test_decode_sti : decode 0b1011_011_000000001#16 = .sti 3#3 1#9 := by decide
theorem test_decode_str : decode 0b0111_011_010_100000#16 = .str 3#3 2#3 0b100000#6 := by decide
theorem test_decode_rti : decode 0b1000_101010111100#16 = .rti := by decide
theorem test_decode_res : decode 0b1101_111111111111#16 = .res := by decide
theorem test_decode_getc : decode 0b1111_0000_00100000#16 = .getc := by decide
theorem test_decode_out : decode 0b1111_1111_00100001#16 = .out := by decide
theorem test_decode_puts : decode 0b1111_0000_00100010#16 = .puts := by decide
theorem test_decode_in : decode 0b1111_0000_00100011#16 = .inTrap := by decide
theorem test_decode_putsp : decode 0b1111_0000_00100100#16 = .putsp := by decide
theorem test_decode_halt : decode 0b1111_0000_00100101#16 = .halt := by decide
theorem test_decode_trap_other :
    decode 0xF01F#16 = .trapOther 0x1F#8 ∧ decode 0xF026#16 = .trapOther 0x26#8 ∧ decode 0xF0FF#16 = .trapOther 0xFF#8 := by
  decide

/-- The encoder gives the spec's own words (95_test_vectors.md A6, B13, C5, R104's NOT with ones in its unused bits). -/
theorem test_encode :
    encode (.add 3#3 1#3 2#3) = 0x1642#16 ∧ encode (.jsr 0x400#11) = 0x4C00#16 ∧
      encode (.ldr 7#3 6#3 0x3F#6) = 0x6FBF#16 ∧ encode (.not 2#3 1#3) = 0x947F#16 ∧ encode .halt = 0xF025#16 := by decide

/-- No two rows of the opcode table but TRAP_other and a named trap's apply to one word (30_encoding.md R71). -/
theorem test_rows_disjoint :
    (opcodeTable.dropLast.Pairwise fun r q => (r.pattern ^^^ q.pattern) &&& (r.mask &&& q.mask) ≠ 0#16) ∧
      opcodeRows.all (fun r => (r.pattern ^^^ 0xF000#16) &&& (r.mask &&& 0xF000#16) != 0#16) ∧
      opcodeTable.length = 25 := by decide

/-! ### Helpers of the spec: 95_test_vectors.md H1 to H7 -/

theorem test_sext5 : sext 0x10#5 = 0xFFF0#16 ∧ sext 0x0F#5 = 0x000F#16 ∧ sext 0x1F#5 = 0xFFFF#16 := by decide
theorem test_sext_wide : sext 0x20#6 = 0xFFE0#16 ∧ sext 0x100#9 = 0xFF00#16 ∧ sext 0x400#11 = 0xFC00#16 := by decide
theorem test_swap : swapByteOrder 0x1234#16 = 0x3412#16 ∧ swapByteOrder 0x00FF#16 = 0xFF00#16 := by decide
theorem test_setcc :
    ccOf 0x0000#16 = condZ ∧ ccOf 0x0001#16 = condP ∧ ccOf 0x7FFF#16 = condP ∧ ccOf 0x8000#16 = condN := by decide

/-! ### Arithmetic and logic: 95_test_vectors.md section A -/

/-- A2: 0x8000 + 0x8000 wraps to 0 and sets Z. -/
theorem test_add_wraps :
    after (step (start (one 0x1441#16) [(1#3, 0x8000#16), (2#3, 0xDEAD#16)] condP []))
      (fun t => (t.pc, t.reg 2#3, t.cond)) = some (0x3001#16, 0x0000#16, condZ) := by decide
/-- A3: 0x7FFF + 1 is negative. -/
theorem test_addi_overflow :
    after (step (start (one 0x1261#16) [(1#3, 0x7FFF#16)] condP [])) (fun t => (t.reg 1#3, t.cond)) =
      some (0x8000#16, condN) := by decide
/-- A5: 0 - 1 is 0xFFFF. -/
theorem test_addi_minus_one :
    after (step (start (one 0x127F#16) [] condZ [])) (fun t => (t.reg 1#3, t.cond)) = some (0xFFFF#16, condN) := by decide
/-- A14. -/
theorem test_and :
    after (step (start (one 0x5946#16) [(5#3, 0xF0F0#16), (6#3, 0x3C3C#16)] condZ [])) (fun t => (t.reg 4#3, t.cond)) =
      some (0x3030#16, condP) := by decide
/-- A13: a negative immediate clears the low four bits only. -/
theorem test_andi_negative :
    after (step (start (one 0x5470#16) [(1#3, 0xABCD#16)] condZ [])) (fun t => (t.reg 2#3, t.cond)) =
      some (0xABC0#16, condN) := by decide
/-- A18: bits[5:0] are ignored. -/
theorem test_not :
    after (step (start (one 0x9440#16) [(1#3, 0x8000#16)] condN [])) (fun t => (t.reg 2#3, t.cond)) =
      some (0x7FFF#16, condP) := by decide

/-! ### Control transfer: section B -/

/-- B2: taken, to itself. -/
theorem test_br_taken_to_itself :
    after (step (start (one 0x09FF#16) [] condN [])) (fun t => (t.pc, t.cond)) = some (0x3000#16, condN) := by decide
/-- B7: in the reset state not even BRnzp is taken. -/
theorem test_br_never_taken_at_reset :
    after (step (start (one 0x0E05#16) [] 0b000#3 [])) (fun t => t.pc) = some 0x3001#16 := by decide
/-- B11a. -/
theorem test_jmp :
    after (step (start (one 0xCEBF#16) [(2#3, 0xABCD#16)] condP [])) (fun t => (t.pc, t.reg 7#3)) =
      some (0xABCD#16, 0x0000#16) := by decide
/-- B13. -/
theorem test_jsr :
    after (step (start (one 0x4C00#16) [] condP [])) (fun t => (t.pc, t.reg 7#3)) = some (0x2C01#16, 0x3001#16) := by decide
/-- B15 and B16: R7 is written before the base is read. -/
theorem test_jsrr :
    after (step (start (one 0x4080#16) [(2#3, 0x5000#16)] condP [])) (fun t => (t.pc, t.reg 7#3)) =
      some (0x5000#16, 0x3001#16) := by decide
theorem test_jsrr_r7 :
    after (step (start (one 0x41C0#16) [(7#3, 0x5000#16)] condP [])) (fun t => (t.pc, t.reg 7#3)) =
      some (0x3001#16, 0x3001#16) := by decide

/-! ### Loads, LEA and stores: section C -/

/-- C2: loads its own word. -/
theorem test_ld_own_word :
    after (step (start (one 0x23FF#16) [] condZ [])) (fun t => (t.reg 1#3, t.cond)) = some (0x23FF#16, condP) := by decide
/-- C4. -/
theorem test_ldi :
    after (step (start [(0x3000, 0xA401#16), (0x3002, 0x4000#16), (0x4000, 0x0042#16)] [] condZ []))
      (fun t => (t.reg 2#3, t.cond)) = some (0x0042#16, condP) := by decide
/-- C6: DR is 4 and the address wraps. -/
theorem test_ldr_wraps :
    after (step (start [(0x000F, 0x0007#16), (0x3000, 0x695F#16)] [(5#3, 0xFFF0#16)] condZ []))
      (fun t => (t.reg 4#3, t.reg 0#3, t.cond)) = some (0x0007#16, 0x0000#16, condP) := by decide
/-- C9. -/
theorem test_lea :
    after (step (start (one 0xE1FF#16) [] condZ [])) (fun t => (t.reg 0#3, t.cond)) = some (0x3000#16, condP) := by decide
/-- C15: the store overwrites its own word, after the fetch. -/
theorem test_st_own_word :
    after (step (start (one 0x37FF#16) [(3#3, 0xCAFE#16)] condP [])) (fun t => (t.pc, t.mem, t.cond)) =
      some (0x3001#16, [(0x3000, 0xCAFE#16)], condP) := by decide
/-- C16: the pointer stays. -/
theorem test_sti :
    after (step (start [(0x3000, 0xB601#16), (0x3002, 0x5000#16)] [(3#3, 0xCAFE#16)] condZ []))
      (fun t => (t.mem.read 0x5000#16, t.mem.read 0x3002#16)) = some (0xCAFE#16, 0x5000#16) := by decide
/-- C17: the address wraps below 0. -/
theorem test_str_wraps :
    after (step (start (one 0x76A0#16) [(2#3, 0x0010#16), (3#3, 0x1111#16)] condN [])) (fun t => t.mem.read 0xFFF0#16) =
      some 0x1111#16 := by decide

/-! ### TRAP and the reserved opcodes: sections D and E -/

/-- D1a: the whole of R0 is replaced. -/
theorem test_getc :
    after (step (start (one 0xF020#16) [(0#3, 0xABCD#16)] condN [0xFF#8]))
      (fun t => (t.pc, t.reg 0#3, t.conin, t.conout, t.cond)) = some (0x3001#16, 0x00FF#16, [], [], condN) := by decide
/-- D2: held, with no state change. -/
theorem test_getc_held : step (start (one 0xF020#16) [] condZ []) = .next (start (one 0xF020#16) [] condZ []) := by
  rfl
/-- D4: no jump through memory[0x0021]. -/
theorem test_out :
    after (step (start [(0x0021, 0x0400#16), (0x3000, 0xFF21#16)] [(0#3, 0x1241#16)] condZ []))
      (fun t => (t.pc, t.conout, t.reg 7#3)) = some (0x3001#16, [0x41#8], 0x0000#16) := by decide
/-- D5b: low bytes only; a word 0x4100 ends nothing. -/
theorem test_puts :
    after (step (start [(0x3000, 0xF022#16), (0x4000, 0x1248#16), (0x4001, 0x4100#16), (0x4002, 0x0049#16), (0x4003, 0#16)]
      [(0#3, 0x4000#16)] condZ [])) (fun t => (t.pc, t.conout)) = some (0x3001#16, [0x48#8, 0x00#8, 0x49#8]) := by decide
/-- D5c: the scan wraps from 0xFFFF to 0x0000. -/
theorem test_puts_wraps :
    after (step (start [(0x0000, 0x0042#16), (0x0001, 0x0000#16), (0x3000, 0xF022#16), (0xFFFF, 0x0041#16)]
      [(0#3, 0xFFFF#16)] condZ [])) (fun t => t.conout) = some [0x41#8, 0x42#8] := by decide
/-- D6. -/
theorem test_in :
    after (step (start (one 0xF023#16) [(0#3, 0xFFFF#16)] condN [0x5A#8])) (fun t => (t.reg 0#3, t.conin, t.cond)) =
      some (0x005A#16, [], condN) := by decide
theorem test_in_prompt_then_echo :
    after (step (start (one 0xF023#16) [] condN [0x5A#8])) (fun t => t.conout) = some (Config.prompt ++ [0x5A#8]) := by
  rfl
/-- D8a: a zero low byte is emitted, a zero high byte skipped. -/
theorem test_putsp :
    after (step (start [(0x3000, 0xF024#16), (0x4000, 0x4100#16), (0x4001, 0x0042#16), (0x4002, 0x4443#16), (0x4003, 0#16)]
      [(0#3, 0x4000#16)] condZ [])) (fun t => t.conout) = some [0x00#8, 0x41#8, 0x42#8, 0x43#8, 0x44#8] := by decide
/-- D9. -/
theorem test_halt :
    after (step (start (one 0xF025#16) [(0#3, 0x1234#16)] condP [])) (fun t => (t.pc, t.run, t.reg 0#3)) =
      some (0x3001#16, false, 0x1234#16) := by decide
theorem test_halt_notice :
    after (step (start (one 0xF025#16) [] condP [])) (fun t => t.conout) = some Config.haltNotice := by rfl
/-- D11. -/
theorem test_trap_other :
    after (step (start (one 0xF0FF#16) [(7#3, 0x1111#16)] condP [])) (fun t => (t.pc, t.run, t.reg 7#3, t.conout)) =
      some (0x3001#16, true, 0x1111#16, []) := by decide
/-- E2. -/
theorem test_rti :
    after (step (start (one 0x8ABC#16) [(6#3, 0x2FFF#16)] condN [])) (fun t => (t.pc, t.reg 6#3, t.cond)) =
      some (0x3001#16, 0x2FFF#16, condN) := by decide
/-- E4. -/
theorem test_res :
    after (step (start (one 0xDFFF#16) [] condP [])) (fun t => (t.pc, t.cond)) = some (0x3001#16, condP) := by decide

/-! ### The cycle and the loader: sections F and G -/

/-- F3: pc wraps on its increment. -/
theorem test_pc_wraps :
    after (step { State.reset with pc := 0xFFFF#16, mem := [(0xFFFF, 0x0000#16)] }) (fun t => t.pc) = some 0x0000#16 := by
  decide
/-- L2: nothing is written past 0xFFFF, and nothing wraps. -/
theorem test_loader_truncates :
    loadImage [] [0xFF#8, 0xFE#8, 0x11#8, 0x11#8, 0x22#8, 0x22#8, 0x33#8, 0x33#8] =
      [(0xFFFE, 0x1111#16), (0xFFFF, 0x2222#16)] := by decide
/-- L3 and L6: an odd trailing byte is ignored, and a later image overwrites. -/
theorem test_loader_odd_byte : loadImage [] [0x30#8, 0x00#8, 0x12#8, 0x34#8, 0x56#8] = [(0x3000, 0x1234#16)] := by decide
theorem test_loader_overwrites :
    loadImages [] [[0x30#8, 0x00#8, 0x11#8, 0x11#8, 0x22#8, 0x22#8], [0x30#8, 0x01#8, 0x33#8, 0x33#8]] =
      [(0x3000, 0x1111#16), (0x3001, 0x3333#16)] := by decide
/-- The host's placing of a word runs it first after reset. -/
theorem test_with_fetch_word :
    after (step (State.reset.withFetchWord 16 0x1025)) (fun t => (t.reg 0#3, t.cond)) = some (0x0005#16, condP) ∧
      decodeTableWord 16 0x1025 = some (.addi 0#3 0#3 5#5) := by decide

/-! ### Witnesses: states and operands that meet the hypotheses of the statements -/

theorem test_witness_AddRegisterForm :
    Opcode.ofBits ((0x1FDF#16).extractLsb' 12 4) = .add ∧ (0x1FDF#16).getLsbD 5 = false := by decide
theorem test_witness_AddImmediateForm :
    Opcode.ofBits ((0x1FFF#16).extractLsb' 12 4) = .add ∧ (0x1FFF#16).getLsbD 5 = true := by decide
theorem test_witness_AndRegisterForm :
    Opcode.ofBits ((0x5FDF#16).extractLsb' 12 4) = .and ∧ (0x5FDF#16).getLsbD 5 = false := by decide
theorem test_witness_AndImmediateForm :
    Opcode.ofBits ((0x5FFF#16).extractLsb' 12 4) = .and ∧ (0x5FFF#16).getLsbD 5 = true ∧ (0b10000#5).getLsbD 4 = true := by
  decide
theorem test_witness_NotEffect : Opcode.ofBits ((0x9FFF#16).extractLsb' 12 4) = .not := by decide
theorem test_witness_BranchEffect : Opcode.ofBits ((0x0FFF#16).extractLsb' 12 4) = .br := by decide
theorem test_witness_JumpEffect : Opcode.ofBits ((0xCFFF#16).extractLsb' 12 4) = .jmp := by decide
theorem test_witness_JsrEffect :
    Opcode.ofBits ((0x4FFF#16).extractLsb' 12 4) = .jsr ∧ (0x4FFF#16).getLsbD 11 = true := by decide
theorem test_witness_JsrrEffect :
    Opcode.ofBits ((0x47FF#16).extractLsb' 12 4) = .jsr ∧ (0x47FF#16).getLsbD 11 = false := by decide
theorem test_witness_LoadEffect : Opcode.ofBits ((0x2FFF#16).extractLsb' 12 4) = .ld := by decide
theorem test_witness_LoadIndirectEffect : Opcode.ofBits ((0xAFFF#16).extractLsb' 12 4) = .ldi := by decide
theorem test_witness_LoadRegisterEffect : Opcode.ofBits ((0x6FFF#16).extractLsb' 12 4) = .ldr := by decide
theorem test_witness_LoadAddressEffect : Opcode.ofBits ((0xEFFF#16).extractLsb' 12 4) = .lea := by decide
theorem test_witness_StoreEffect : Opcode.ofBits ((0x3FFF#16).extractLsb' 12 4) = .st := by decide
theorem test_witness_StoreIndirectEffect : Opcode.ofBits ((0xBFFF#16).extractLsb' 12 4) = .sti := by decide
theorem test_witness_StoreRegisterEffect : Opcode.ofBits ((0x7FFF#16).extractLsb' 12 4) = .str := by decide
theorem test_witness_RtiIsNoOp : Opcode.ofBits ((0x8FFF#16).extractLsb' 12 4) = .rti := by decide
theorem test_witness_ResIsNoOp : Opcode.ofBits ((0xDFFF#16).extractLsb' 12 4) = .res := by decide
theorem test_witness_TrapVectorDispatch :
    [0xF01F#16, 0xF020#16, 0xF021#16, 0xF022#16, 0xF023#16, 0xF024#16, 0xF025#16, 0xF026#16, 0xFFFF#16, 0xF000#16].map
      (fun w => (Opcode.ofBits (w.extractLsb' 12 4), w.extractLsb' 0 8)) =
    [(.trap, 0x1F#8), (.trap, 0x20#8), (.trap, 0x21#8), (.trap, 0x22#8), (.trap, 0x23#8), (.trap, 0x24#8), (.trap, 0x25#8),
      (.trap, 0x26#8), (.trap, 0xFF#8), (.trap, 0x00#8)] := by decide
theorem test_witness_BranchTruthTable :
    [0b100#3, 0b010#3, 0b001#3, 0b000#3].map (fun c => (start [] [] c []).cond) = [0b100#3, 0b010#3, 0b001#3, 0b000#3] := by
  decide

/-- A call, the state after it, and R7 kept. -/
theorem test_witness_SubroutineReturns :
    (Instr.jsr 0#11).dest = some 7#3 ∧ (Instr.jsr 0#11).isControl = true ∧ (Instr.jsrr 7#3).dest = some 7#3 ∧
      exec (.jsr 0#11) State.reset = .next ((State.reset.advance.setReg 7#3 0x3001#16).setPc 0x3001#16) :=
  ⟨rfl, rfl, rfl, rfl⟩

theorem test_witness_GetcReadsCharacter : (start [] [] condZ [0x61#8]).conin = 0x61#8 :: [] := by decide
theorem test_witness_InPromptsReadsEchoes : (start [] [] condZ [0x61#8, 0x62#8]).conin = 0x61#8 :: [0x62#8] := by decide

/-- Strings of length 0 and 2. -/
theorem test_witness_PutsPrintsLowBytes :
    (start [(0x0000, 0#16)] [] condZ []).mem.read (0#16 + BitVec.ofNat 16 0) = 0#16 ∧
      (∀ j, j < 2 → (start [(0xFFFF, 1#16), (0x0000, 1#16), (0x0001, 0#16)] [(0#3, 0xFFFF#16)] condZ []).mem.read
        (0xFFFF#16 + BitVec.ofNat 16 j) ≠ 0#16) ∧
      (start [(0xFFFF, 1#16), (0x0000, 1#16), (0x0001, 0#16)] [(0#3, 0xFFFF#16)] condZ []).mem.read
        (0xFFFF#16 + BitVec.ofNat 16 2) = 0#16 := by decide
theorem test_witness_PutspPrintsPackedBytes :
    (start [(0x0000, 0x4241#16), (0x0001, 0#16)] [] condZ []).mem.read (0#16 + BitVec.ofNat 16 0) ≠ 0#16 ∧
      (start [(0x0000, 0x4241#16), (0x0001, 0#16)] [] condZ []).mem.read (0#16 + BitVec.ofNat 16 1) = 0#16 := by decide

theorem test_witness_HeldUntilInputArrives : (start (one 0xF020#16) [] condZ []).held := ⟨rfl, by decide, rfl⟩
theorem test_witness_HeldUntilInputArrives_in : (start (one 0xF023#16) [] condZ []).held := ⟨rfl, by decide, rfl⟩

theorem test_witness_SignExtensionFormula : (1 ≤ 1 ∧ 1 ≤ 16) ∧ (1 ≤ 16 ∧ 16 ≤ 16) := by decide
theorem test_witness_FlagUpdater :
    (0x8000#16).getLsbD 15 = true ∧ (0x7FFF#16 ≠ 0#16 ∧ (0x7FFF#16).getLsbD 15 = false) := by decide

/-- One instruction of each kind that the frames speak of, with its next state. -/
theorem test_witness_WhoWritesAndReadsCond :
    (Instr.not 0#3 0#3).flagDest = some 0#3 ∧ Instr.rti.flagDest = none ∧ Instr.rti.readsCond = false ∧
      exec (.not 0#3 0#3) State.reset = .next (State.reset.advance.writeResult 0#3 0xFFFF#16) ∧
      exec .rti State.reset = .next State.reset.advance := ⟨rfl, rfl, rfl, rfl, rfl⟩
theorem test_witness_ExactlyOneFlagForEver :
    exec .rti (start [] [] condN []) = .next (start [] [] condN []).advance ∧ (start [] [] condN []).cond = 0b100#3 ∧
      (start [] [] condZ []).cond = 0b010#3 ∧ (start [] [] condP []).cond = 0b001#3 := ⟨rfl, rfl, rfl, rfl⟩
theorem test_witness_OnlyStoresWriteMemory :
    Instr.rti.storeTarget State.reset = none ∧
      (Instr.st 0#3 0x1FF#9).storeTarget State.reset = some (0x3000#16, 0#3) ∧
      exec (.st 0#3 0x1FF#9) State.reset = .next (State.reset.advance.store 0x3000#16 0x0000#16) :=
  ⟨rfl, by decide, rfl⟩
theorem test_witness_OnlyDestinationRegisterWritten :
    (Instr.not 0#3 0#3).dest ≠ some 7#3 ∧ Instr.halt.dest ≠ some 7#3 := by decide
theorem test_witness_OnlyControlTransfersMovePc :
    Instr.getc.isControl = false ∧ (start [] [] condZ [0x61#8]).conin ≠ [] ∧
      exec .getc (start [] [] condZ [0x61#8]) = .next (((start [] [] condZ []).advance).setReg 0#3 0x0061#16) :=
  ⟨rfl, by decide, rfl⟩
theorem test_witness_ConsoleStreamsFrame :
    Instr.rti.prints = false ∧ Instr.rti.readsInput = false ∧ Instr.getc.readsInput = true ∧ Instr.getc.prints = false := by
  decide
theorem test_witness_InputIndependence :
    Instr.rti.readsInput = false ∧ exec .rti State.reset = .next State.reset.advance := ⟨rfl, rfl⟩
theorem test_witness_MemoryIndependence :
    Instr.out.accessesMemory = false ∧ exec .out State.reset = .next (State.reset.advance.emit [0x00#8]) := ⟨rfl, rfl⟩
theorem test_witness_StepRunsDecodedInstruction :
    (start (one 0x8000#16) [] condZ []).run = true ∧
      decode ((start (one 0x8000#16) [] condZ []).mem.read (start (one 0x8000#16) [] condZ []).pc) = .rti := by decide

theorem test_witness_HaltPrintsNoticeAndStops :
    Instr.rti ≠ .halt ∧ exec .rti State.reset = .next State.reset.advance := ⟨by decide, rfl⟩

/-- A memory with no zero word: `n` ones from address `a` on. -/
def ones (n a : Nat) : Memory :=
  match n with
  | 0 => []
  | k + 1 => (a, 0x0001#16) :: ones k (a + 1)

theorem ones_find? (n a b : Nat) (h : a ≤ b) (hb : b < a + n) : (ones n a).find? b = some 0x0001#16 := by
  induction n generalizing a with
  | zero => omega
  | succ k ih =>
    rw [ones, Memory.find?]
    split
    · rfl
    · exact ih (a + 1) (by omega) (by omega)

/-- A machine at pc 0x0000, with the word `w` there and ones in the rest of memory. -/
def endless (w : Word) : State :=
  { State.reset with pc := 0x0000#16, mem := (0, w) :: ones 65535 1 }

theorem endless_noZeroWord (w : Word) (hw : w ≠ 0#16) : (endless w).noZeroWord := by
  intro a
  have ha := a.isLt
  simp only [endless, Memory.read, Memory.find?]
  split
  · exact hw
  · rw [ones_find? 65535 1 a.toNat (by omega) (by omega), Option.getD_some]
    decide

theorem test_witness_EveryInstructionCompletesOrHangs :
    Instr.puts.printsString = true ∧ Instr.putsp.printsString = true ∧ (endless 0xF022#16).noZeroWord :=
  ⟨rfl, rfl, endless_noZeroWord _ (by decide)⟩
theorem test_witness_StepOutcomes :
    { State.reset with run := false }.run = false ∧ (endless 0xF022#16).hangs ∧
      (start (one 0x8000#16) [] condZ []).run = true ∧ ¬ (start (one 0x8000#16) [] condZ []).hangs :=
  ⟨rfl, ⟨rfl, by decide, endless_noZeroWord _ (by decide)⟩, rfl, fun h => absurd h.2.1 (by decide)⟩
theorem test_witness_RunEndsOnlyByHalt :
    (start (one 0xF025#16) [] condZ []).nextInstr = .halt ∧
      step (start (one 0xF025#16) [] condZ []) =
        .next ((start (one 0xF025#16) [] condZ []).advance.emit Config.haltNotice).halt := ⟨by decide, rfl⟩
theorem test_witness_StoreThenFetch :
    (start (one 0x3600#16) [] condZ []).nextInstr = .st 3#3 0#9 ∧
      (start (one 0x37FF#16) [] condZ []).nextInstr = .st 3#3 0x1FF#9 := by decide
theorem test_witness_LoadAfterStore :
    exec (.str 3#3 3#3 0#6) State.reset = .next (State.reset.advance.store 0x0000#16 0x0000#16) := rfl

/-- Origin 0xFFFE: the last address is written by content word 1, the one below the origin and a half word by none. -/
theorem test_witness_LoaderContract :
    (256 * (0xFF#8).toNat + (0xFE#8).toNat ≤ (0xFFFF#16).toNat ∧
      2 * ((0xFFFF#16).toNat - (256 * (0xFF#8).toNat + (0xFE#8).toNat)) + 1 < [0x11#8, 0x11#8, 0x22#8, 0x22#8].length) ∧
    ¬ (256 * (0xFF#8).toNat + (0xFE#8).toNat ≤ (0xFFFD#16).toNat) ∧
    ¬ (2 * ((0xFFFF#16).toNat - (256 * (0xFF#8).toNat + (0xFE#8).toNat)) + 1 < [0x11#8, 0x11#8, 0x22#8].length) := by
  decide

/-- The second of two files cannot be opened; no step follows, and the first file's word is in no state. -/
theorem test_witness_LoadFailure :
    none ∈ [some [0x30#8, 0x00#8, 0x80#8, 0x00#8], none] ∧
      State.boot [some [0x30#8, 0x00#8, 0x80#8, 0x00#8], none] = none := by decide

theorem test_witness_EveryStepKeepsInvariant :
    (start (one 0x37FF#16) [(3#3, 0xCAFE#16)] condP []).Inv ∧
      step (start (one 0x37FF#16) [(3#3, 0xCAFE#16)] condP []) =
        .next ((start (one 0x37FF#16) [(3#3, 0xCAFE#16)] condP []).advance.store 0x3000#16 0xCAFE#16) :=
  ⟨by decide, rfl⟩
theorem test_witness_ReachableStatesMeetInvariant :
    Reachable [some [0x30#8, 0x00#8, 0x80#8, 0x00#8]]
      ((State.launch [[0x30#8, 0x00#8, 0x80#8, 0x00#8]]).supplyInput [0x61#8]) :=
  .supplied _ _ (.launched _ rfl)
theorem test_witness_DecodeOfEncode :
    (Instr.trapOther 0x1F#8).wf = true ∧ (Instr.trapOther 0x26#8).wf = true ∧ (Instr.jsr 0x7FF#11).wf = true := by decide
theorem test_witness_UntestedBranchIsNoOp : (0x01FF#16).toNat < 0x200 ∧ (0x0000#16).toNat < 0x200 := by decide

end Sys2Proof.Tests
end

section
/-! Sign extension as arithmetic on numbers (spec 00_scope.md R13). -/

namespace Sys2Proof.Proofs

open Sys2Proof.Machine

/-- Filling the bits above an N-bit field with its top bit adds `2^16 - 2^N`, the weight of those bits, when that bit is set. -/
theorem toNat_sext {n : Nat} (v : BitVec n) (hn : n ≤ 16) :
    (sext v).toNat = v.toNat + if v.msb then 65536 - 2 ^ n else 0 := by
  rw [sext, BitVec.toNat_signExtend, BitVec.toNat_setWidth_of_le hn]

/-- Settles O31: the sign bit the rule tests, `v[N-1]`, is the most significant bit. -/
theorem signExtensionFormula : Obligations.SignExtensionFormula := by
  intro n v _ hn
  rw [toNat_sext v hn, BitVec.msb_eq_getLsbD_last]
  split
  · rfl
  · exact Nat.add_zero _

end Sys2Proof.Proofs
end

section
/-! Who writes COND and who reads it (spec 10_state.md R26, R27). -/

namespace Sys2Proof.Proofs

open Sys2Proof.Machine

/-! ### Who writes COND -/

/-- The seven flag-affecting instructions end in `setcc` of the value they give DR. -/
theorem exec_cond_of_flagDest {i : Instr} {s t : State} {dr : RegIdx} (h : exec i s = .next t)
    (hf : i.flagDest = some dr) : t.cond = ccOf (t.reg dr) := by
  cases exec_shape h with
  | result dr' v hf' =>
    obtain rfl : dr = dr' := Option.some.inj (hf.symm.trans hf')
    simp
  | halt hi => cases hi; cases hf
  | _ => cases hf.symm.trans ‹i.flagDest = none›

/-- Every shape of a next state but `result` is built from updates that leave COND alone. -/
theorem exec_cond_of_flagDest_none {i : Instr} {s t : State} (h : exec i s = .next t)
    (hf : i.flagDest = none) : t.cond = s.cond := by
  cases exec_shape h with
  | result dr v hf' => cases hf.symm.trans hf'
  | _ => rfl

/-! ### Who reads COND -/

/-- The state with `c` in COND and everything else as it is. -/
def withCond (s : State) (c : BitVec 3) : State := { s with cond := c }

/-- An instruction other than BR reads no flag: from another COND it reaches the same next state, but for a COND that is the
result's if it writes the flags and the one it started from if it does not. The stream and the memory on which GETC, IN, PUTS
and PUTSP branch are the same in both states. -/
theorem exec_withCond {i : Instr} {s t : State} (c : BitVec 3) (hi : i.readsCond = false)
    (h : exec i s = .next t) :
    exec i (withCond s c) = .next (withCond t (if i.flagDest.isSome then t.cond else c)) := by
  cases i
  case br => cases hi
  case getc =>
    cases hs : s.conin with
    | nil =>
      cases (execGetc_of_nil hs).symm.trans h
      exact execGetc_of_nil (s := withCond s c) hs
    | cons ch rest =>
      cases (execGetc_of_cons hs).symm.trans h
      exact execGetc_of_cons (s := withCond s c) hs
  case inTrap =>
    cases hs : s.conin with
    | nil =>
      cases (execInTrap_of_nil hs).symm.trans h
      exact execInTrap_of_nil (s := withCond s c) hs
    | cons ch rest =>
      cases (execInTrap_of_cons hs).symm.trans h
      exact execInTrap_of_cons (s := withCond s c) hs
  case puts =>
    cases hs : s.stringAt (s.reg 0#3) with
    | none => cases (execPuts_of_none hs).symm.trans h
    | some ws =>
      cases (execPuts_of_some hs).symm.trans h
      exact execPuts_of_some (s := withCond s c) hs
  case putsp =>
    cases hs : s.stringAt (s.reg 0#3) with
    | none => cases (execPutsp_of_none hs).symm.trans h
    | some ws =>
      cases (execPutsp_of_some hs).symm.trans h
      exact execPutsp_of_some (s := withCond s c) hs
  -- Every other instruction has one next state, whose fields but COND are computed without COND.
  all_goals
    cases h
    rfl

/-- Settles O33: the writers by the shapes of a next state, the one reader by the instructions' meanings. -/
theorem whoWritesAndReadsCond : Obligations.WhoWritesAndReadsCond :=
  ⟨fun _ _ _ h => ⟨fun _ hf => exec_cond_of_flagDest h hf, exec_cond_of_flagDest_none h⟩,
    fun _ _ _ c hi h => ⟨_, exec_withCond c hi h, rfl⟩⟩

/-! ### The flag updater -/

/-- Settles O32: the three cases of the value `setcc` gives COND. -/
theorem flagUpdater : Obligations.FlagUpdater := by
  intro s v
  rw [State.setcc_cond]
  exact ⟨fun h => h ▸ ccOf_zero, ccOf_negative, ccOf_positive⟩

end Sys2Proof.Proofs
end

section
/-! ADD, AND and NOT (spec 41_alu.md): the rows the decoder takes, the value each gives DR, and the frame all five share. -/

namespace Sys2Proof.Proofs

open Sys2Proof.Machine

/-! ### The encodings (R100 to R104) -/

/-- Bit 5 of a word of opcode ADD selects the immediate form. -/
theorem decode_of_opcode_add {w : Word} (h : opcodeOf w = .add) :
    decode w = if w.getLsbD 5 then .addi (field11to9 w) (field8to6 w) (fieldImm5 w)
      else .add (field11to9 w) (field8to6 w) (field2to0 w) := by
  rw [decode, h]

/-- Bit 5 of a word of opcode AND selects the immediate form. -/
theorem decode_of_opcode_and {w : Word} (h : opcodeOf w = .and) :
    decode w = if w.getLsbD 5 then .andi (field11to9 w) (field8to6 w) (fieldImm5 w)
      else .and (field11to9 w) (field8to6 w) (field2to0 w) := by
  rw [decode, h]

theorem decode_of_opcode_not {w : Word} (h : opcodeOf w = .not) :
    decode w = .not (field11to9 w) (field8to6 w) := by
  rw [decode, h]

/-! ### The next state: the sources are read before DR is written -/

theorem exec_add (dr sr1 sr2 : RegIdx) (s : State) :
    exec (.add dr sr1 sr2) s = .next (s.advance.writeResult dr (s.reg sr1 + s.reg sr2)) := rfl

theorem exec_addi (dr sr1 : RegIdx) (imm5 : BitVec 5) (s : State) :
    exec (.addi dr sr1 imm5) s = .next (s.advance.writeResult dr (s.reg sr1 + sext imm5)) := rfl

theorem exec_and (dr sr1 sr2 : RegIdx) (s : State) :
    exec (.and dr sr1 sr2) s = .next (s.advance.writeResult dr (s.reg sr1 &&& s.reg sr2)) := rfl

theorem exec_andi (dr sr1 : RegIdx) (imm5 : BitVec 5) (s : State) :
    exec (.andi dr sr1 imm5) s = .next (s.advance.writeResult dr (s.reg sr1 &&& sext imm5)) := rfl

theorem exec_not (dr sr : RegIdx) (s : State) :
    exec (.not dr sr) s = .next (s.advance.writeResult dr (~~~ s.reg sr)) := rfl

/-- Writing a result to DR after the pc's increment is the whole effect of a flag-affecting instruction. -/
theorem resultWritten_writeResult (dr : RegIdx) (v : Word) (s : State) :
    resultWritten dr v s (s.advance.writeResult dr v) := by
  have hdr : (s.advance.writeResult dr v).reg dr = v := by simp
  have hframe : sameRegsBut dr s (s.advance.writeResult dr v) := fun r hr => by simp [hr]
  exact ⟨hdr, rfl, rfl, hframe, rfl, fun _ => rfl, rfl, rfl⟩

/-! ### The values -/

/-- The complement of a word is 65535 less the word (R104). -/
theorem not_eq_ofNat_sub (v : Word) : ~~~ v = BitVec.ofNat 16 (65535 - v.toNat) := by
  apply BitVec.eq_of_toNat_eq
  rw [BitVec.toNat_not, BitVec.toNat_ofNat]
  omega

/-- The bits above a sign-extended field are copies of its sign bit (00_scope.md R13). -/
theorem getLsbD_sext_of_ge {n : Nat} (v : BitVec n) {i : Nat} (hlo : n ≤ i) (hhi : i < 16) :
    (sext v).getLsbD i = v.msb := by
  rw [sext, BitVec.getLsbD_signExtend, if_neg (Nat.not_lt.2 hlo), decide_eq_true hhi, Bool.true_and]

/-- A negative imm5 is extended by ones, so AND with it keeps the upper eleven bits (R103). -/
theorem extract_and_sext_of_negative (v : Word) {imm5 : BitVec 5} (h : imm5.getLsbD 4 = true) :
    (v &&& sext imm5).extractLsb' 5 11 = v.extractLsb' 5 11 := by
  apply BitVec.eq_of_getLsbD_eq
  intro i hi
  have hone : (sext imm5).getLsbD (5 + i) = true := by
    rw [getLsbD_sext_of_ge imm5 (by omega) (by omega), BitVec.msb_eq_getLsbD_last, h]
  rw [BitVec.getLsbD_extractLsb', BitVec.getLsbD_extractLsb', BitVec.getLsbD_and, hone, Bool.and_true]

/-! ### The statements -/

/-- Settles O1: addition of words is addition of their numbers modulo 65536. -/
theorem addRegisterForm : Obligations.AddRegisterForm := by
  refine ⟨fun w hop hbit => ?_, fun dr sr1 sr2 s => ⟨_, exec_add dr sr1 sr2 s, ?_⟩⟩
  · rw [decode_of_opcode_add hop, hbit]
    rfl
  · rw [← BitVec.add_def]
    exact resultWritten_writeResult dr _ s

/-- Settles O2: the register form's addition, with the sign-extended imm5 for SR2. -/
theorem addImmediateForm : Obligations.AddImmediateForm := by
  refine ⟨fun w hop hbit => ?_, fun dr sr1 imm5 s => ⟨_, exec_addi dr sr1 imm5 s, ?_⟩⟩
  · rw [decode_of_opcode_add hop, hbit]
    rfl
  · rw [← BitVec.add_def]
    exact resultWritten_writeResult dr _ s

/-- Settles O3: the decoder's row and the frame of a written result. -/
theorem andRegisterForm : Obligations.AndRegisterForm := by
  refine ⟨fun w hop hbit => ?_, fun dr sr1 sr2 s =>
    ⟨_, exec_and dr sr1 sr2 s, resultWritten_writeResult dr _ s⟩⟩
  rw [decode_of_opcode_and hop, hbit]
  rfl

/-- Settles O4: what DR then holds is the AND, whose upper bits a negative imm5 keeps. -/
theorem andImmediateForm : Obligations.AndImmediateForm := by
  refine ⟨fun w hop hbit => ?_, fun dr sr1 imm5 s =>
    ⟨_, exec_andi dr sr1 imm5 s, resultWritten_writeResult dr _ s, fun hneg => ?_⟩⟩
  · rw [decode_of_opcode_and hop, hbit]
    rfl
  · rw [State.writeResult_reg, if_pos rfl]
    exact extract_and_sext_of_negative _ hneg

/-- Settles O5: the complement as a difference from 65535, whatever the unused bits. -/
theorem notEffect : Obligations.NotEffect := by
  refine ⟨fun w hop => decode_of_opcode_not hop, fun dr sr s => ⟨_, exec_not dr sr s, ?_⟩⟩
  rw [← not_eq_ofNat_sub]
  exact resultWritten_writeResult dr _ s

end Sys2Proof.Proofs
end

section
/-! BR, JMP and JSR (spec 42_control.md): the rows the decoder takes, BR's test, the next states, and the frames of a jump
without and with a link. -/

namespace Sys2Proof.Proofs

open Sys2Proof.Machine

/-! ### The encodings (R110, R112, R114) -/

theorem decode_of_opcode_br {w : Word} (h : opcodeOf w = .br) :
    decode w = .br (w.getLsbD 11) (w.getLsbD 10) (w.getLsbD 9) (fieldOffset9 w) := by
  rw [decode, h]

theorem decode_of_opcode_jmp {w : Word} (h : opcodeOf w = .jmp) : decode w = .jmp (field8to6 w) := by
  rw [decode, h]

/-- Bit 11 of a word of opcode JSR selects between JSR and JSRR. -/
theorem decode_of_opcode_jsr {w : Word} (h : opcodeOf w = .jsr) :
    decode w = if w.getLsbD 11 then .jsr (fieldOff11 w) else .jsrr (field8to6 w) := by
  rw [decode, h]

/-! ### BR's test -/

/-- The flags as R110 names them: NEGATIVE is bit 2 of COND, ZERO bit 1, POSITIVE bit 0. -/
theorem taken_iff (s : State) (n z p : Bool) :
    s.taken n z p = true ↔
      (n = true ∧ s.cond.getLsbD 2 = true) ∨ (z = true ∧ s.cond.getLsbD 1 = true) ∨
        (p = true ∧ s.cond.getLsbD 0 = true) := by
  simp only [State.taken, Bool.or_eq_true, Bool.and_eq_true, or_assoc]

/-! ### The next state: offsets count from the incremented pc, the base is read from the registers -/

theorem exec_br_of_taken {n z p : Bool} {s : State} (offset9 : BitVec 9) (h : s.taken n z p = true) :
    exec (.br n z p offset9) s = .next (s.setPc (s.pc + 1#16 + sext offset9)) :=
  if_pos h

theorem exec_br_of_not_taken {n z p : Bool} {s : State} (offset9 : BitVec 9) (h : ¬ s.taken n z p = true) :
    exec (.br n z p offset9) s = .next (s.setPc (s.pc + 1#16)) :=
  if_neg h

theorem exec_jmp (baseR : RegIdx) (s : State) :
    exec (.jmp baseR) s = .next (s.setPc (s.reg baseR)) := rfl

theorem exec_jsr (off11 : BitVec 11) (s : State) :
    exec (.jsr off11) s = .next ((s.setReg 7#3 (s.pc + 1#16)).setPc (s.pc + 1#16 + sext off11)) := rfl

/-- Writing pc is the whole effect of a jump that writes no register. -/
theorem jumped_setPc (target : Word) (s : State) : jumped target s (s.setPc target) :=
  ⟨rfl, fun _ => rfl, rfl, rfl, fun _ => rfl, rfl, rfl⟩

/-- Writing the address after the instruction to R7, then pc, is the whole effect of a jump that links. -/
theorem jumpedLinking_setReg_setPc (target : Word) (s : State) :
    jumpedLinking target s ((s.setReg 7#3 (s.pc + 1#16)).setPc target) := by
  have hlink : ((s.setReg 7#3 (s.pc + 1#16)).setPc target).reg 7#3 = s.pc + 1#16 := by simp
  have hframe : sameRegsBut 7#3 s ((s.setReg 7#3 (s.pc + 1#16)).setPc target) := fun r hr => by simp [hr]
  exact ⟨rfl, hlink, hframe, rfl, rfl, fun _ => rfl, rfl, rfl⟩

/-! ### The statements -/

/-- Settles O6: a branch taken and one not taken are both jumps, to the two targets the rule's test chooses between. -/
theorem branchEffect : Obligations.BranchEffect := by
  refine ⟨fun w hop => decode_of_opcode_br hop, fun n z p offset9 s => ?_⟩
  simp only [← taken_iff]
  split
  next h => exact ⟨_, exec_br_of_taken offset9 h, jumped_setPc _ s⟩
  next h => exact ⟨_, exec_br_of_not_taken offset9 h, jumped_setPc _ s⟩

/-- Settles O8: the decoder's row and the frame of a jump. -/
theorem jumpEffect : Obligations.JumpEffect :=
  ⟨fun _ hop => decode_of_opcode_jmp hop, fun baseR s => ⟨_, exec_jmp baseR s, jumped_setPc _ s⟩⟩

/-- Settles O10: the row that bit 11 selects and the frame of a linking jump. -/
theorem jsrEffect : Obligations.JsrEffect := by
  refine ⟨fun w hop hbit => ?_, fun off11 s => ⟨_, exec_jsr off11 s, jumpedLinking_setReg_setPc _ s⟩⟩
  rw [decode_of_opcode_jsr hop, hbit]
  rfl

end Sys2Proof.Proofs
end

section
/-! LD, LDI, LDR, LEA, ST, STI and STR (spec 43_loadstore.md): the rows the decoder takes, the next states with their addresses
written out, and the frame of a store. The loads and LEA share the frame of a written result with the ALU instructions. -/

namespace Sys2Proof.Proofs

open Sys2Proof.Machine

/-! ### The encodings (R121 to R127) -/

theorem decode_of_opcode_ld {w : Word} (h : opcodeOf w = .ld) :
    decode w = .ld (field11to9 w) (fieldOffset9 w) := by
  rw [decode, h]

theorem decode_of_opcode_ldi {w : Word} (h : opcodeOf w = .ldi) :
    decode w = .ldi (field11to9 w) (fieldOffset9 w) := by
  rw [decode, h]

theorem decode_of_opcode_ldr {w : Word} (h : opcodeOf w = .ldr) :
    decode w = .ldr (field11to9 w) (field8to6 w) (fieldOffset6 w) := by
  rw [decode, h]

theorem decode_of_opcode_lea {w : Word} (h : opcodeOf w = .lea) :
    decode w = .lea (field11to9 w) (fieldOffset9 w) := by
  rw [decode, h]

theorem decode_of_opcode_st {w : Word} (h : opcodeOf w = .st) :
    decode w = .st (field11to9 w) (fieldOffset9 w) := by
  rw [decode, h]

theorem decode_of_opcode_sti {w : Word} (h : opcodeOf w = .sti) :
    decode w = .sti (field11to9 w) (fieldOffset9 w) := by
  rw [decode, h]

theorem decode_of_opcode_str {w : Word} (h : opcodeOf w = .str) :
    decode w = .str (field11to9 w) (field8to6 w) (fieldOffset6 w) := by
  rw [decode, h]

/-! ### The next state: addresses, pointers and the base are read before anything is written (R120) -/

theorem exec_ld (dr : RegIdx) (offset9 : BitVec 9) (s : State) :
    exec (.ld dr offset9) s = .next (s.advance.writeResult dr (s.mem.read (s.pc + 1#16 + sext offset9))) := rfl

theorem exec_ldi (dr : RegIdx) (offset9 : BitVec 9) (s : State) :
    exec (.ldi dr offset9) s =
      .next (s.advance.writeResult dr (s.mem.read (s.mem.read (s.pc + 1#16 + sext offset9)))) := rfl

theorem exec_ldr (dr baseR : RegIdx) (offset6 : BitVec 6) (s : State) :
    exec (.ldr dr baseR offset6) s = .next (s.advance.writeResult dr (s.mem.read (s.reg baseR + sext offset6))) := rfl

theorem exec_lea (dr : RegIdx) (offset9 : BitVec 9) (s : State) :
    exec (.lea dr offset9) s = .next (s.advance.writeResult dr (s.pc + 1#16 + sext offset9)) := rfl

theorem exec_st (sr : RegIdx) (offset9 : BitVec 9) (s : State) :
    exec (.st sr offset9) s = .next (s.advance.store (s.pc + 1#16 + sext offset9) (s.reg sr)) := rfl

theorem exec_sti (sr : RegIdx) (offset9 : BitVec 9) (s : State) :
    exec (.sti sr offset9) s = .next (s.advance.store (s.mem.read (s.pc + 1#16 + sext offset9)) (s.reg sr)) := rfl

theorem exec_str (sr baseR : RegIdx) (offset6 : BitVec 6) (s : State) :
    exec (.str sr baseR offset6) s = .next (s.advance.store (s.reg baseR + sext offset6) (s.reg sr)) := rfl

/-- Writing one word of memory after the pc's increment is the whole effect of a store; a read of any other address passes
over the write (20_memory.md R41). -/
theorem wordStored_store (a v : Word) (s : State) : wordStored a v s (s.advance.store a v) := by
  have hword : (s.advance.store a v).mem.read a = v := by simp
  have hframe : sameMemoryBut a s (s.advance.store a v) := fun b hb => by simp [hb]
  exact ⟨hword, hframe, rfl, fun _ => rfl, rfl, rfl, rfl, rfl⟩

/-! ### The statements -/

/-- Settles O12: the decoder's row, and the frame of a written result for the word read. -/
theorem loadEffect : Obligations.LoadEffect :=
  ⟨fun _ hop => decode_of_opcode_ld hop, fun dr offset9 s =>
    ⟨_, exec_ld dr offset9 s, resultWritten_writeResult dr _ s⟩⟩

/-- Settles O13: the frame of a written result for the word at the pointer, both reads being of the memory before. -/
theorem loadIndirectEffect : Obligations.LoadIndirectEffect :=
  ⟨fun _ hop => decode_of_opcode_ldi hop, fun dr offset9 s =>
    ⟨_, exec_ldi dr offset9 s, resultWritten_writeResult dr _ s⟩⟩

/-- Settles O14: the result is computed from the base before DR is written, so DR may be BaseR. -/
theorem loadRegisterEffect : Obligations.LoadRegisterEffect :=
  ⟨fun _ hop => decode_of_opcode_ldr hop, fun dr baseR offset6 s =>
    ⟨_, exec_ldr dr baseR offset6 s, resultWritten_writeResult dr _ s⟩⟩

/-- Settles O15: the frame of a written result for the address itself. -/
theorem loadAddressEffect : Obligations.LoadAddressEffect :=
  ⟨fun _ hop => decode_of_opcode_lea hop, fun dr offset9 s =>
    ⟨_, exec_lea dr offset9 s, resultWritten_writeResult dr _ s⟩⟩

/-- Settles O16: the decoder's row and the frame of a store. -/
theorem storeEffect : Obligations.StoreEffect :=
  ⟨fun _ hop => decode_of_opcode_st hop, fun sr offset9 s =>
    ⟨_, exec_st sr offset9 s, wordStored_store _ _ s⟩⟩

/-- Settles O17: the frame of a store at the pointer, which the memory before the write holds. -/
theorem storeIndirectEffect : Obligations.StoreIndirectEffect :=
  ⟨fun _ hop => decode_of_opcode_sti hop, fun sr offset9 s =>
    ⟨_, exec_sti sr offset9 s, wordStored_store _ _ s⟩⟩

/-- Settles O18: address and value are both read from the registers, which the store leaves alone, so SR may be BaseR. -/
theorem storeRegisterEffect : Obligations.StoreRegisterEffect :=
  ⟨fun _ hop => decode_of_opcode_str hop, fun sr baseR offset6 s =>
    ⟨_, exec_str sr baseR offset6 s, wordStored_store _ _ s⟩⟩

end Sys2Proof.Proofs
end

section
/-! OUT, PUTS and HALT (spec 44_trap.md): the next states, the frame of a trap that prints, and what leaves run alone. -/

namespace Sys2Proof.Proofs

open Sys2Proof.Machine

/-! ### The next states: R0 is read after the pc's increment, which leaves the registers alone -/

theorem exec_out (s : State) : exec .out s = .next (s.advance.emit [lowByte (s.reg 0#3)]) := rfl

theorem exec_puts_of_some {s : State} {ws : List Word} (h : s.stringAt (s.reg 0#3) = some ws) :
    exec .puts s = .next (s.advance.emit (ws.map lowByte)) :=
  execPuts_of_some h

theorem exec_halt (s : State) : exec .halt s = .next (s.advance.emit Config.haltNotice).halt := rfl

/-! ### The frames -/

/-- Appending to CONOUT after the pc's increment is the whole effect of a trap that prints. -/
theorem printed_emit (cs : List Byte) (s : State) : printed cs s (s.advance.emit cs) :=
  ⟨rfl, rfl, fun _ => rfl, rfl, rfl, fun _ => rfl, rfl⟩

/-- A machine with `run = 0` takes no step (40_instruction_cycle.md R97). -/
theorem step_ne_next_of_halted {s : State} (h : s.run = false) (u : State) : step s ≠ .next u := by
  rw [step_halted h]
  nofun

/-- HALT alone writes run: every other shape of a next state is built from updates that leave it alone. -/
theorem exec_run_of_ne_halt {i : Instr} {s t : State} (hi : i ≠ .halt) (h : exec i s = .next t) : t.run = s.run := by
  cases exec_shape h with
  | halt hh => exact absurd hh hi
  | _ => rfl

/-! ### The statements -/

/-- Settles O24: the scan finds the words before the first zero word, and PUTS prints their low bytes. -/
theorem putsPrintsLowBytes : Obligations.PutsPrintsLowBytes := by
  intro s k hk hne hz
  refine ⟨_, exec_puts_of_some (State.stringAt_eq_range hk hne hz), ?_⟩
  rw [List.map_map]
  exact printed_emit _ s

/-- Settles O23: the frame of a trap that prints, for the low byte of R0. -/
theorem outPrintsLowByte : Obligations.OutPrintsLowByte :=
  fun s => ⟨_, exec_out s, printed_emit _ s⟩

/-- Settles O27: the notice is printed as by any printing trap, run is then 0, and no other instruction writes run. -/
theorem haltPrintsNoticeAndStops : Obligations.HaltPrintsNoticeAndStops := by
  refine ⟨fun s => ⟨_, exec_halt s, rfl, ?_⟩, fun _ _ _ hi h => exec_run_of_ne_halt hi h⟩
  obtain ⟨hout, hpc, hregs, hcond, -, hmem, hin⟩ := printed_emit Config.haltNotice s
  exact ⟨hout, hpc, hregs, hcond, hmem, hin, step_ne_next_of_halted rfl⟩

end Sys2Proof.Proofs
end

section
/-! RTI and RES (spec 45_reserved.md): the rows the decoder takes, the next states, and the frame of an instruction that does
nothing but let the pc advance. -/

namespace Sys2Proof.Proofs

open Sys2Proof.Machine

/-! ### The encodings: the opcode decides, no bit below it is looked at (R155, R156) -/

theorem decode_of_opcode_rti {w : Word} (h : opcodeOf w = .rti) : decode w = .rti := by
  rw [decode, h]

theorem decode_of_opcode_res {w : Word} (h : opcodeOf w = .res) : decode w = .res := by
  rw [decode, h]

/-! ### The next state -/

theorem exec_rti (s : State) : exec .rti s = .next s.advance := rfl

theorem exec_res (s : State) : exec .res s = .next s.advance := rfl

/-- The pc's increment (40_instruction_cycle.md R92) touches no other field. -/
theorem onlyPcAdvanced_advance (s : State) : onlyPcAdvanced s s.advance :=
  ⟨s.advance_pc, s.advance_reg, s.advance_cond, s.advance_run, fun _ => rfl, s.advance_conout, s.advance_conin⟩

/-! ### The statements -/

/-- Settles O19: the decoder's row and the frame of the pc's increment. -/
theorem rtiIsNoOp : Obligations.RtiIsNoOp :=
  ⟨fun _ hop => decode_of_opcode_rti hop, fun s => ⟨_, exec_rti s, onlyPcAdvanced_advance s⟩⟩

/-- Settles O20: as for RTI; there is no illegal-opcode exception to raise. -/
theorem resIsNoOp : Obligations.ResIsNoOp :=
  ⟨fun _ hop => decode_of_opcode_res hop, fun s => ⟨_, exec_res s, onlyPcAdvanced_advance s⟩⟩

end Sys2Proof.Proofs
end

section
/-! The loader's byte exchange and the boot that fails (spec 70_reset_and_hazards.md R189, R192). -/

namespace Sys2Proof.Proofs

open Sys2Proof.Machine

/-! ### A word and its two bytes -/

theorem highByte_joinBytes (high low : Byte) : highByte (joinBytes high low) = high := by
  have hlow := low.isLt
  apply BitVec.eq_of_toNat_eq
  rw [highByte_toNat, joinBytes_toNat]
  omega

theorem lowByte_joinBytes (high low : Byte) : lowByte (joinBytes high low) = low := by
  have hlow := low.isLt
  apply BitVec.eq_of_toNat_eq
  rw [lowByte_toNat, joinBytes_toNat]
  omega

theorem joinBytes_highByte_lowByte (w : Word) : joinBytes (highByte w) (lowByte w) = w := by
  apply BitVec.eq_of_toNat_eq
  rw [joinBytes_toNat, highByte_toNat, lowByte_toNat]
  exact Nat.div_add_mod _ 256

theorem highByte_swapByteOrder (w : Word) : highByte (swapByteOrder w) = lowByte w :=
  highByte_joinBytes _ _

theorem lowByte_swapByteOrder (w : Word) : lowByte (swapByteOrder w) = highByte w :=
  lowByte_joinBytes _ _

/-- The second exchange joins the bytes in their first order. -/
theorem swapByteOrder_swapByteOrder (w : Word) : swapByteOrder (swapByteOrder w) = w := by
  rw [swapByteOrder, highByte_swapByteOrder, lowByte_swapByteOrder, joinBytes_highByte_lowByte]

/-! ### Booting when every file was opened, and when one cannot be (R192) -/

theorem boot_map_some (images : List (List Byte)) : State.boot (images.map some) = some (State.launch images) := by
  rw [State.boot, loadFiles_map_some]
  rfl

/-- A loading reported as done has only opened files, so a file that cannot be opened leaves the other report. -/
theorem loadFiles_failed_of_none_mem {files : List (Option (List Byte))} (hnone : none ∈ files) (m : Memory) :
    (loadFiles m files).1 = .failed := by
  rcases hl : loadFiles m files with ⟨_ | _, m'⟩
  case loaded =>
    obtain ⟨images, rfl⟩ := eq_map_some_of_loadFiles hl
    simp at hnone
  case failed => rfl

theorem boot_eq_none_of_none_mem {files : List (Option (List Byte))} (hnone : none ∈ files) :
    State.boot files = none := by
  cases hb : State.boot files with
  | none => rfl
  | some s =>
    obtain ⟨images, rfl, -⟩ := State.eq_launch_of_boot hb
    simp at hnone

/-- Every run begins at a launch, so without one there is no state of a run. -/
theorem not_reachable_of_boot_eq_none {files : List (Option (List Byte))} (hboot : State.boot files = none) (s : State) :
    ¬ Reachable files s := by
  intro hs
  induction hs with
  | launched s hlaunch => cases hboot.symm.trans hlaunch
  | stepped s t _ _ ih => exact ih
  | supplied s cs _ ih => exact ih

/-! ### The statements -/

/-- Settles O60: the boot follows the loading's report, and a run needs a boot. -/
theorem loadFailure : Obligations.LoadFailure := by
  refine ⟨loadFile_none, fun images => ?_, fun files hnone => ?_⟩
  · have hboot := boot_map_some images
    exact ⟨by rw [loadFiles_map_some], hboot, rfl, .launched _ hboot⟩
  · have hboot := boot_eq_none_of_none_mem hnone
    exact ⟨loadFiles_failed_of_none_mem hnone, hboot, not_reachable_of_boot_eq_none hboot⟩

/-- Settles O50: the exchange read by bytes, and done twice. -/
theorem swapByteOrderInvolution : Obligations.SwapByteOrderInvolution :=
  fun w => ⟨highByte_swapByteOrder w, lowByte_swapByteOrder w, swapByteOrder_swapByteOrder w⟩

end Sys2Proof.Proofs
end

section
/-! The invariant of a run (spec 10_state.md sections 3 and 4): it holds at a boot, and every step and every input keeps it. -/

namespace Sys2Proof.Proofs

open Sys2Proof.Machine

/-! ### A step that gives a next state -/

/-- A step gives a next state only in a running machine, and it is then the fetched instruction's own. -/
theorem step_eq_next {s t : State} (h : step s = .next t) : s.run = true ∧ exec s.nextInstr s = .next t := by
  cases hr : s.run with
  | false => cases (step_halted hr).symm.trans h
  | true => exact ⟨rfl, (step_running hr).symm.trans h⟩

/-! ### The two parts of the invariant -/

/-- Memory is written by a store alone, and a write keeps the canonical form. -/
theorem exec_mem_wf {i : Instr} {s t : State} (h : exec i s = .next t) (hm : s.mem.wf) : t.mem.wf := by
  cases exec_shape h with
  | stored a r => exact Memory.write_wf a (s.reg r) hm
  | _ => exact hm

/-- The three flags in the order of COND's bits. -/
theorem ccOf_one_flag (v : Word) : ccOf v = 0b001#3 ∨ ccOf v = 0b010#3 ∨ ccOf v = 0b100#3 := by
  rcases ccOf_cases v with h | h | h
  · exact .inr (.inl h)
  · exact .inr (.inr h)
  · exact .inl h

/-- COND is written by the updater alone. -/
theorem exec_condLegal {i : Instr} {s t : State} (h : exec i s = .next t) (hc : condLegal s.cond) : condLegal t.cond := by
  cases hf : i.flagDest with
  | none => rwa [exec_cond_of_flagDest_none h hf]
  | some dr => rw [exec_cond_of_flagDest h hf]; exact .inr (ccOf_one_flag _)

/-- Whatever images are loaded, the loader keeps memory canonical and COND is reset's. -/
theorem launch_inv (images : List (List Byte)) : (State.launch images).Inv :=
  ⟨loadImages_wf images State.reset_mem_wf, .inl rfl⟩

/-! ### The statements -/

/-- Settles O52: the fetched instruction keeps both parts. -/
theorem everyStepKeepsInvariant : Obligations.EveryStepKeepsInvariant := by
  rintro s t ⟨hm, hc⟩ hstep
  obtain ⟨-, h⟩ := step_eq_next hstep
  exact ⟨exec_mem_wf h hm, exec_condLegal h hc⟩

/-- Settles O51: nothing is written in memory, and no flag is set. -/
theorem resetMeetsInvariant : Obligations.ResetMeetsInvariant :=
  ⟨State.reset_mem_wf, .inl rfl⟩

/-- Settles O53: a boot is a launch, steps keep the invariant, and input touches neither memory nor COND. -/
theorem reachableStatesMeetInvariant : Obligations.ReachableStatesMeetInvariant := by
  intro files s hs
  induction hs with
  | launched s hboot =>
    obtain ⟨images, -, rfl⟩ := State.eq_launch_of_boot hboot
    exact launch_inv images
  | stepped s t _ hstep ih => exact everyStepKeepsInvariant s t ih hstep
  | supplied s cs _ ih => exact ih

end Sys2Proof.Proofs
end

section
/-! Decoding and encoding (spec 30_encoding.md): the encoder's fields read back, the bits the decoder looks at, and the opcode
table. -/

namespace Sys2Proof.Proofs

open Sys2Proof.Machine

/-! ### Fields as masked words -/

/-- The word with ones in the `n` bits from `lo` on. -/
def fieldMask (lo n : Nat) : Word := place (BitVec.allOnes n) lo

/-- Taking a field out and putting it back where it stood masks the word. -/
theorem place_extract (w : Word) (lo n : Nat) : place (w.extractLsb' lo n) lo = w &&& fieldMask lo n := by
  refine word_ext fun k => ?_
  have hk := k.isLt
  by_cases hlo : lo ≤ k <;> by_cases hn : (k : Nat) - lo < n <;> simp [fieldMask, hlo, hn, hk]

/-- Two words that agree outside `u` have the same field wherever `u` is zero. -/
theorem extract_of_agree {v w u : Word} (h : v ||| u = w ||| u) {lo n : Nat} (hu : u.extractLsb' lo n = 0#n) :
    v.extractLsb' lo n = w.extractLsb' lo n := by
  have hf := congrArg (BitVec.extractLsb' lo n) h
  rwa [extract_or, extract_or, hu, BitVec.or_zero, BitVec.or_zero] at hf

theorem getLsbD_of_agree {v w u : Word} (h : v ||| u = w ||| u) {k : Nat} (hu : u.getLsbD k = false) :
    v.getLsbD k = w.getLsbD k := by
  have hk := congrArg (BitVec.getLsbD · k) h
  simpa [hu] using hk

/-! ### The opcode of an instruction's format -/

/-- The opcode in `bits[15:12]` of an instruction's word (30_encoding.md R63). -/
def opcodeOfInstr (i : Instr) : Opcode :=
  match i with
  | .add _ _ _ | .addi _ _ _ => .add
  | .and _ _ _ | .andi _ _ _ => .and
  | .not _ _ => .not
  | .br _ _ _ _ => .br
  | .jmp _ => .jmp
  | .jsr _ | .jsrr _ => .jsr
  | .ld _ _ => .ld
  | .ldi _ _ => .ldi
  | .ldr _ _ _ => .ldr
  | .lea _ _ => .lea
  | .st _ _ => .st
  | .sti _ _ => .sti
  | .str _ _ _ => .str
  | .rti => .rti
  | .res => .res
  | .getc | .out | .puts | .inTrap | .putsp | .halt | .trapOther _ => .trap

theorem extract_opcode_word (o : Opcode) : o.word.extractLsb' 12 4 = o.bits := extract_place _ _ (by decide)

/-- Below bit 12 the opcode's word is zero. -/
theorem extract_word_of_low (o : Opcode) {lo n : Nat} (h : lo + n ≤ 12) : o.word.extractLsb' lo n = 0#n :=
  extract_place_of_disjoint _ _ _ _ (.inl h)

theorem getLsbD_word_of_low (o : Opcode) {k : Nat} (h : k < 12) : o.word.getLsbD k = false := by
  simp [Opcode.word, Nat.not_le.2 h]

/-- No field below bit 12 reaches the opcode. -/
theorem extract_opcode_encode (i : Instr) : (encode i).extractLsb' 12 4 = (opcodeOfInstr i).bits := by
  cases i <;> simp [encode, opcodeOfInstr, extract_or, extract_opcode_word, extract_place_of_disjoint]

theorem extract_opcode_unused (i : Instr) : i.unused.extractLsb' 12 4 = 0#4 := by
  cases i <;> (simp only [Instr.unused]; decide)

/-! ### The trap vectors -/

theorem decode_of_opcode_trap {w : Word} (h : opcodeOf w = .trap) : decode w = decodeTrap (fieldTrapvect8 w) := by
  rw [decode, h]

/-- A vector that is none of 0x20 to 0x25 is kept (44_trap.md R142). -/
theorem decodeTrap_of_not_builtin {v : Byte} (h : isBuiltinVector v = false) : decodeTrap v = .trapOther v := by
  have hne : ∀ b : Byte, isBuiltinVector b = true → v ≠ b := by
    rintro b hb rfl
    simp [h] at hb
  simp only [decodeTrap, hne 0x20#8 rfl, hne 0x21#8 rfl, hne 0x22#8 rfl, hne 0x23#8 rfl, hne 0x24#8 rfl, hne 0x25#8 rfl,
    if_false]

/-! ### The decoder looks at no unused bit -/

/-- A word that agrees with an instruction's own word outside the unused bits decodes to the instruction: opcode and fields all
lie outside them, and the encoder has put each field where the decoder takes it. -/
theorem decode_of_agree {v : Word} {i : Instr} (hwf : i.wf = true) (h : v ||| i.unused = encode i ||| i.unused) :
    decode v = i := by
  have hop : opcodeOf v = opcodeOfInstr i := by
    rw [opcodeOf, extract_of_agree h (extract_opcode_unused i), extract_opcode_encode, Opcode.ofBits_bits]
  have hfield : ∀ lo n, i.unused.extractLsb' lo n = 0#n → v.extractLsb' lo n = (encode i).extractLsb' lo n :=
    fun _ _ hu => extract_of_agree h hu
  have hbit : ∀ k, i.unused.getLsbD k = false → v.getLsbD k = (encode i).getLsbD k :=
    fun _ hu => getLsbD_of_agree h hu
  rw [decode, hop]
  cases i
  -- In each format: the fields of `v` are those of the encoder's word, where each placed field is read back.
  all_goals
    simp only [Instr.unused] at hfield hbit
    simp (disch := decide) only [opcodeOfInstr, field11to9, field8to6, field2to0, fieldImm5, fieldOffset6, fieldOffset9,
      fieldOff11, fieldTrapvect8, hfield, hbit, encode, extract_or, extract_place, extract_place_of_disjoint,
      extract_word_of_low, BitVec.zero_or, BitVec.or_zero, BitVec.getLsbD_or, getLsbD_place, getLsbD_word_of_low]
  case trapOther => exact decodeTrap_of_not_builtin (by simpa [Instr.wf] using hwf)
  case getc | out | puts | inTrap | putsp | halt => rfl
  case add | addi | and | andi | br | jsr | jsrr => simp

/-! ### Every word is the word of the instruction it decodes to, its unused bits apart -/

theorem encode_decodeTrap (v : Byte) : encode (decodeTrap v) = Opcode.trap.word ||| place v 0 := by
  unfold decodeTrap
  iterate 6
    split
    · subst_vars; rfl
  rfl

theorem unused_decodeTrap (v : Byte) : (decodeTrap v).unused = 0x0F00#16 := by
  unfold decodeTrap
  repeat' split
  all_goals rfl

/-- A field of one bit. -/
theorem extract_one (w : Word) (k : Nat) : w.extractLsb' k 1 = BitVec.ofBool (w.getLsbD k) := by
  apply BitVec.eq_of_getLsbD_eq
  intro i hi
  obtain rfl : i = 0 := by omega
  simp

/-- The opcode's name stands for the four bits it was read from. -/
theorem word_of_opcode {w : Word} {o : Opcode} (h : opcodeOf w = o) : o.word = w &&& fieldMask 12 4 := by
  rw [← h, opcodeOf, Opcode.word, Opcode.bits_ofBits, place_extract]

theorem place_one_of_bit {w : Word} {k : Nat} (h : w.getLsbD k = true) : place 1#1 k = w &&& fieldMask k 1 := by
  rw [← place_extract, extract_one, h]
  rfl

theorem and_fieldMask_of_no_bit {w : Word} {k : Nat} (h : w.getLsbD k = false) : w &&& fieldMask k 1 = 0#16 := by
  rw [← place_extract, extract_one, h]
  exact BitVec.eq_of_getLsbD_eq (by simp)

/-- Masking changes no bit that counts, if every bit is in the mask `m`, or does not count (`u`), or is zero in `w` (`z`). -/
theorem and_or_of_cover {w m u z : Word} (hz : w &&& z = 0#16) (h : m ||| u ||| z = BitVec.allOnes 16) :
    w &&& m ||| u = w ||| u := by
  refine word_ext fun k => ?_
  have hzk := congrArg (BitVec.getLsbD · k) hz
  have hk := congrArg (BitVec.getLsbD · k) h
  simp only [BitVec.getLsbD_or, BitVec.getLsbD_and, BitVec.getLsbD_zero, BitVec.getLsbD_allOnes, k.isLt, decide_true]
    at hzk hk ⊢
  cases hw : w.getLsbD k with
  | false => rfl
  | true =>
    have hz0 : z.getLsbD k = false := by simpa [hw] using hzk
    rw [hz0, Bool.or_false] at hk
    rw [Bool.true_and, Bool.true_or, hk]

/-- Settles O56: the encoder puts each field back where the decoder took it, so it masks the word by its fields; what the mask
leaves out is unused, or the bit whose zero selected the format. -/
theorem encodeOfDecode : Obligations.EncodeOfDecode := by
  intro w
  cases hop : opcodeOf w
  all_goals simp only [decode, hop]
  case add | and | jsr =>
    split
    next hbit =>
      simp only [encode, Instr.unused, word_of_opcode hop, field11to9, field8to6, fieldImm5, fieldOff11,
        place_one_of_bit hbit, place_extract, ← BitVec.and_or_distrib_left]
      exact and_or_of_cover BitVec.and_zero (by decide)
    next hbit =>
      simp only [encode, Instr.unused, word_of_opcode hop, field11to9, field8to6, field2to0, place_extract,
        ← BitVec.and_or_distrib_left]
      exact and_or_of_cover (and_fieldMask_of_no_bit (eq_false_of_ne_true hbit)) (by decide)
  case trap =>
    simp only [encode_decodeTrap, unused_decodeTrap, word_of_opcode hop, fieldTrapvect8, place_extract,
      ← BitVec.and_or_distrib_left]
    exact and_or_of_cover BitVec.and_zero (by decide)
  case not =>
    have hones : place 0b111111#6 0 = 0x003F#16 := rfl
    simp only [encode, Instr.unused, word_of_opcode hop, field11to9, field8to6, hones, place_extract,
      BitVec.or_assoc _ 0x003F#16, BitVec.or_self, ← BitVec.and_or_distrib_left]
    exact and_or_of_cover BitVec.and_zero (by decide)
  all_goals
    simp only [encode, Instr.unused, word_of_opcode hop, field11to9, field8to6, fieldOffset6, fieldOffset9,
      ← extract_one, place_extract, ← BitVec.and_or_distrib_left]
    exact and_or_of_cover BitVec.and_zero (by decide)

/-! ### Every decoded instruction is well-formed -/

theorem eq_of_builtin {v : Byte} (h : isBuiltinVector v = true) :
    v = 0x20#8 ∨ v = 0x21#8 ∨ v = 0x22#8 ∨ v = 0x23#8 ∨ v = 0x24#8 ∨ v = 0x25#8 := by
  simp only [isBuiltinVector, Bool.and_eq_true, decide_eq_true_eq] at h
  bv_omega

theorem wf_decodeTrap (v : Byte) : (decodeTrap v).wf = true := by
  cases hb : isBuiltinVector v with
  | false => simp [decodeTrap_of_not_builtin hb, Instr.wf, hb]
  | true => rcases eq_of_builtin hb with rfl | rfl | rfl | rfl | rfl | rfl <;> rfl

theorem wf_decode (w : Word) : (decode w).wf = true := by
  cases hop : opcodeOf w
  all_goals simp only [decode, hop]
  case trap => exact wf_decodeTrap _
  case add | and | jsr => split <;> rfl
  all_goals rfl

/-! ### The round trips -/

/-- Settles O55: the decoder reads opcode and fields back where the encoder put them; the word agrees with itself in every bit. -/
theorem decodeOfEncode : Obligations.DecodeOfEncode :=
  fun _ hwf => decode_of_agree hwf rfl

/-- Flipping bits inside `u` changes nothing outside it. -/
theorem xor_and_or (w x u : Word) : w ^^^ (x &&& u) ||| u = w ||| u := by
  refine word_ext fun k => ?_
  rw [BitVec.getLsbD_or, BitVec.getLsbD_or, BitVec.getLsbD_xor, BitVec.getLsbD_and]
  cases u.getLsbD k <;> simp

/-- Settles O57: the changed word still agrees with the encoder's outside the unused bits. -/
theorem unusedBitsIgnored : Obligations.UnusedBitsIgnored := by
  intro w x
  refine decode_of_agree (wf_decode w) ?_
  rw [xor_and_or, encodeOfDecode]

/-! ### The opcode table -/

/-- The encoder's word lies in the instruction's own row, by the laws for each constructor. -/
theorem row_applies_encode (i : Instr) : i.row.applies (encode i) = true :=
  match i with
  | .add dr sr1 sr2 => Laws.RowMatch.add dr sr1 sr2
  | .addi dr sr1 imm5 => Laws.RowMatch.addi dr sr1 imm5
  | .and dr sr1 sr2 => Laws.RowMatch.and dr sr1 sr2
  | .andi dr sr1 imm5 => Laws.RowMatch.andi dr sr1 imm5
  | .not dr sr => Laws.RowMatch.not dr sr
  | .br n z p offset9 => Laws.RowMatch.br n z p offset9
  | .jmp baseR => Laws.RowMatch.jmp baseR
  | .jsr off11 => Laws.RowMatch.jsr off11
  | .jsrr baseR => Laws.RowMatch.jsrr baseR
  | .ld dr offset9 => Laws.RowMatch.ld dr offset9
  | .ldi dr offset9 => Laws.RowMatch.ldi dr offset9
  | .ldr dr baseR offset6 => Laws.RowMatch.ldr dr baseR offset6
  | .lea dr offset9 => Laws.RowMatch.lea dr offset9
  | .st sr offset9 => Laws.RowMatch.st sr offset9
  | .sti sr offset9 => Laws.RowMatch.sti sr offset9
  | .str sr baseR offset6 => Laws.RowMatch.str sr baseR offset6
  | .rti => Laws.RowMatch.rti
  | .res => Laws.RowMatch.res
  | .getc => Laws.RowMatch.getc
  | .out => Laws.RowMatch.out
  | .puts => Laws.RowMatch.puts
  | .inTrap => Laws.RowMatch.inTrap
  | .putsp => Laws.RowMatch.putsp
  | .halt => Laws.RowMatch.halt
  | .trapOther v => Laws.RowMatch.trapOther v

/-- No row looks at a bit that its format leaves unused. -/
theorem mask_and_unused (i : Instr) : i.row.mask &&& i.unused = 0#16 := by
  cases i <;> (simp only [Instr.row, Instr.unused]; decide)

/-- The row of the decoded instruction applies: the encoder gives back every bit that the row looks at. -/
theorem row_applies_decode (w : Word) : (decode w).row.applies w = true := by
  have hagree := congrArg (· &&& (decode w).row.mask) (encodeOfDecode w)
  simp only [BitVec.and_comm _ (decode w).row.mask, BitVec.and_or_distrib_left, mask_and_unused, BitVec.or_zero] at hagree
  rw [Row.applies, BitVec.and_comm, ← hagree, BitVec.and_comm]
  exact row_applies_encode (decode w)

/-- A row that fixes every bit but the unused ones is that of one instruction. -/
theorem decode_of_row_applies {i : Instr} {w : Word} (hwf : i.wf = true)
    (hfull : i.row.mask ||| i.unused = BitVec.allOnes 16) (h : i.row.applies w = true) : decode w = i := by
  have hcover : i.row.mask ||| i.unused ||| 0#16 = BitVec.allOnes 16 := BitVec.or_zero.trans hfull
  refine decode_of_agree hwf ?_
  rw [← and_or_of_cover BitVec.and_zero hcover, ← and_or_of_cover (w := encode i) BitVec.and_zero hcover, eq_of_beq h,
    eq_of_beq (row_applies_encode i)]

/-- Two rows differ in a bit that both fix. -/
abbrev rowsExclude (r r' : Row) : Prop := r.pattern &&& r'.mask ≠ r'.pattern &&& r.mask

/-- Rows that exclude each other never both apply. -/
theorem not_rowsExclude {r r' : Row} {w : Word} (h : r.applies w = true) (h' : r'.applies w = true) :
    ¬ rowsExclude r r' := by
  rw [rowsExclude, ← eq_of_beq h, ← eq_of_beq h', BitVec.and_assoc, BitVec.and_assoc, BitVec.and_comm r.mask]
  exact fun hne => hne rfl

/-- Among rows of which any two exclude each other, the first that applies is the only one. -/
theorem find?_of_pairwise {rows : List Row} {r : Row} {w : Word} (hrows : rows.Pairwise rowsExclude) (hr : r ∈ rows)
    (h : r.applies w = true) : rows.find? (fun r => r.applies w) = some r := by
  cases hf : rows.find? (fun r => r.applies w) with
  | none => exact absurd h (List.find?_eq_none.1 hf r hr)
  | some r' =>
    have h' : r'.applies w = true := by simpa using List.find?_some hf
    have hsymm : Std.Symm rowsExclude := ⟨fun _ _ hne => hne.symm⟩
    by_cases heq : r' = r
    · rw [heq]
    · exact absurd (hrows.forall (List.mem_of_find?_eq_some hf) hr heq) (not_rowsExclude h' h)

/-- The instructions of the six recognised trap vectors. -/
def builtinTraps : List Instr := [.getc, .out, .puts, .inTrap, .putsp, .halt]

/-- The table's rows but the last, the catch-all of opcode TRAP. -/
def specificRows : List Row := opcodeRows ++ builtinTraps.map Instr.row

theorem opcodeTable_eq (v : Byte) : opcodeTable = specificRows ++ [(Instr.trapOther v).row] := rfl

theorem specificRows_pairwise : specificRows.Pairwise rowsExclude := by decide

theorem row_mem_specificRows {i : Instr} (h : ∀ v, i ≠ .trapOther v) : i.row ∈ specificRows := by
  cases i
  case trapOther v => exact absurd rfl (h v)
  all_goals simp [specificRows, opcodeRows, builtinTraps, Instr.row]

/-- No other row applies to a word that decodes to the catch-all: the opcode excludes the rows before the traps', and a row of a
recognised vector would have decoded to its own instruction. -/
theorem not_applies_of_trapOther {w : Word} {v : Byte} (h : decode w = .trapOther v) {r : Row} (hr : r ∈ specificRows) :
    ¬ r.applies w = true := by
  intro ha
  have hother := row_applies_decode w
  rw [h] at hother
  rcases List.mem_append.1 hr with hr | hr
  · have hex : ∀ r ∈ opcodeRows, rowsExclude r (Instr.trapOther 0).row := by decide
    exact not_rowsExclude ha hother (hex r hr)
  · obtain ⟨i, hi, rfl⟩ := List.mem_map.1 hr
    have hfull : ∀ i ∈ builtinTraps, i.wf = true ∧ i.row.mask ||| i.unused = BitVec.allOnes 16 ∧
        ∀ v, i ≠ .trapOther v := by
      decide
    obtain ⟨hwf, hcover, hne⟩ := hfull i hi
    exact hne v ((decode_of_row_applies hwf hcover ha).symm.trans h)

/-- Settles O58: the decoded instruction's row applies; before the last row no two apply together, and the last is met only if
none of them does. -/
theorem decoderFollowsOpcodeTable : Obligations.DecoderFollowsOpcodeTable := by
  refine fun w => ⟨?_, wf_decode w⟩
  have hrow := row_applies_decode w
  by_cases hother : ∃ v, decode w = .trapOther v
  · obtain ⟨v, hv⟩ := hother
    have hnone : specificRows.find? (fun r => r.applies w) = none :=
      List.find?_eq_none.2 fun r => not_applies_of_trapOther hv
    rw [hv] at hrow ⊢
    rw [opcodeTable_eq v, List.find?_append, hnone, List.find?_singleton, if_pos hrow]
    rfl
  · have hmem : (decode w).row ∈ specificRows := row_mem_specificRows fun v hv => hother ⟨v, hv⟩
    rw [opcodeTable_eq 0#8, List.find?_append, find?_of_pairwise specificRows_pairwise hmem hrow]
    rfl

/-! ### The trap vectors, opcode 0 and the opcode numbers -/

/-- Settles O21: the dispatch looks at the vector alone. -/
theorem trapVectorDispatch : Obligations.TrapVectorDispatch := by
  intro w hop
  rw [decode_of_opcode_trap hop]
  have hvec : ∀ v, w.extractLsb' 0 8 = v → decodeTrap (fieldTrapvect8 w) = decodeTrap v :=
    fun _ hv => congrArg decodeTrap hv
  refine ⟨hvec _, hvec _, hvec _, hvec _, hvec _, hvec _, fun hout => decodeTrap_of_not_builtin ?_⟩
  rw [isBuiltinVector, Bool.and_eq_false_iff, decide_eq_false_iff_not, decide_eq_false_iff_not, BitVec.le_def, BitVec.le_def,
    Nat.not_le, Nat.not_le]
  exact hout

/-- The words with a zero in every bit from 9 on: opcode BR, no flag tested. -/
theorem decode_of_lt_0x200 {w : Word} (h : w.toNat < 0x200) : decode w = .br false false false (fieldOffset9 w) := by
  have hop : opcodeOf w = .br := by
    have hzero : w.extractLsb' 12 4 = 0#4 := by
      apply BitVec.eq_of_toNat_eq
      rw [BitVec.extractLsb'_toNat, Nat.shiftRight_eq_div_pow]
      simp only [BitVec.toNat_ofNat, Nat.reducePow]
      omega
    rw [opcodeOf, hzero]
    rfl
  have hbit : ∀ k, 9 ≤ k → w.getLsbD k = false := fun k hk =>
    Nat.testBit_lt_two_pow (Nat.lt_of_lt_of_le h (Nat.pow_le_pow_right (Nat.succ_pos 1) hk))
  rw [decode_of_opcode_br hop, hbit 11 (by decide), hbit 10 (by decide), hbit 9 (by decide)]

/-- Settles O59: a branch that tests no flag is not taken. -/
theorem untestedBranchIsNoOp : Obligations.UntestedBranchIsNoOp := by
  intro w s hw
  rw [decode_of_lt_0x200 hw]
  exact ⟨_, exec_br_of_not_taken _ (by simp [State.taken]), onlyPcAdvanced_advance s⟩

/-- Settles O54: by evaluating the decoder on the words. -/
theorem opcodeNumbersAndSampleWords : Obligations.OpcodeNumbersAndSampleWords := by
  unfold Obligations.OpcodeNumbersAndSampleWords
  decide

end Sys2Proof.Proofs
end

section
/-! BR's truth table, JSRR, and the return from a subroutine (spec 42_control.md). -/

namespace Sys2Proof.Proofs

open Sys2Proof.Machine

/-! ### BR under each value of COND -/

theorem exec_br_pc (n z p : Bool) (offset9 : BitVec 9) (s : State) :
    ∃ t, exec (.br n z p offset9) s = .next t ∧
      t.pc = if s.taken n z p then s.pc + 1#16 + sext offset9 else s.pc + 1#16 := by
  split
  next h => exact ⟨_, exec_br_of_taken offset9 h, rfl⟩
  next h => exact ⟨_, exec_br_of_not_taken offset9 h, rfl⟩

theorem taken_of_negative {s : State} (h : s.cond = 0b100#3) (n z p : Bool) : s.taken n z p = n := by
  simp [State.taken, h]

theorem taken_of_zero {s : State} (h : s.cond = 0b010#3) (n z p : Bool) : s.taken n z p = z := by
  simp [State.taken, h]

theorem taken_of_positive {s : State} (h : s.cond = 0b001#3) (n z p : Bool) : s.taken n z p = p := by
  simp [State.taken, h]

theorem taken_of_no_flag {s : State} (h : s.cond = 0b000#3) (n z p : Bool) : s.taken n z p = false := by
  simp [State.taken, h]

/-- Settles O7: one column of the table for each legal value of COND. -/
theorem branchTruthTable : Obligations.BranchTruthTable := by
  intro n z p offset9 s
  have hpc := exec_br_pc n z p offset9 s
  refine ⟨fun h => ?_, fun h => ?_, fun h => ?_, fun h => ?_⟩
  · rwa [taken_of_negative h] at hpc
  · rwa [taken_of_zero h] at hpc
  · rwa [taken_of_positive h] at hpc
  · rwa [taken_of_no_flag h] at hpc

/-! ### JSRR: the target is read after R7 is written (R115) -/

theorem exec_jsrr (baseR : RegIdx) (s : State) :
    exec (.jsrr baseR) s =
      .next ((s.setReg 7#3 (s.pc + 1#16)).setPc (if baseR = 7#3 then s.pc + 1#16 else s.reg baseR)) := by
  rw [← State.setReg_reg]
  rfl

/-- Settles O11: the row that bit 11 leaves, and the frame of a linking jump. -/
theorem jsrrEffect : Obligations.JsrrEffect := by
  refine ⟨fun w hop hbit => ?_, fun baseR s => ⟨_, exec_jsrr baseR s, jumpedLinking_setReg_setPc _ s⟩⟩
  rw [decode_of_opcode_jsr hop, hbit]
  rfl

/-! ### The link and the return -/

theorem isControl_of_readsInput {i : Instr} (h : i.readsInput = true) : i.isControl = false := by
  cases i
  case getc | inTrap => rfl
  all_goals cases h

/-- Of the control transfers only JSR and JSRR write a register, and both write the address after them to R7. -/
theorem exec_link {call : Instr} {s t : State} (hd : call.dest = some 7#3) (hc : call.isControl = true)
    (h : exec call s = .next t) : t.reg 7#3 = s.pc + 1#16 := by
  cases exec_shape h with
  | link a => simp
  | held hi => cases hc.symm.trans (isControl_of_readsInput hi)
  | halt hh => cases hh; cases hd
  | jump a _ hd' => cases hd.symm.trans hd'
  | _ => cases hc.symm.trans ‹call.isControl = false›

/-- Settles O9: the return reads the link from R7. -/
theorem subroutineReturns : Obligations.SubroutineReturns := by
  intro call s t u hd hc hcall hlink
  refine ⟨_, exec_jmp 7#3 u, ?_⟩
  rw [hlink, exec_link hd hc hcall]
  exact jumped_setPc _ u

end Sys2Proof.Proofs
end

section
/-! What an instruction may write (spec 10_state.md, 40_instruction_cycle.md R95): each field's frame, by the shapes of a next
state. -/

namespace Sys2Proof.Proofs

open Sys2Proof.Machine

/-! ### Memory -/

theorem exec_mem_of_storeTarget_none {i : Instr} {s t : State} (h : exec i s = .next t)
    (hm : i.storeTarget s = none) : t.mem = s.mem := by
  cases exec_shape h with
  | stored a r hm' => cases hm.symm.trans hm'
  | _ => rfl

theorem exec_of_storeTarget {i : Instr} {s t : State} {a : Word} {r : RegIdx} (h : exec i s = .next t)
    (hm : i.storeTarget s = some (a, r)) : t = s.advance.store a (s.reg r) := by
  cases exec_shape h with
  | stored a' r' hm' => cases hm.symm.trans hm'; rfl
  | halt hh => cases hh; cases hm
  | _ => cases hm.symm.trans ‹i.storeTarget s = none›

/-- Settles O35: only a store's shape writes memory, and it is the whole effect of a store. -/
theorem onlyStoresWriteMemory : Obligations.OnlyStoresWriteMemory := by
  refine fun i s t h => ⟨fun hm b => ?_, fun a r hm => ?_⟩
  · rw [exec_mem_of_storeTarget_none h hm]
  · obtain rfl := exec_of_storeTarget h hm
    obtain ⟨hword, hframe, -⟩ := wordStored_store a (s.reg r) s
    exact ⟨hword, hframe⟩

/-! ### Registers and flags -/

/-- Settles O36: the three shapes that write a register write the instruction's destination. -/
theorem onlyDestinationRegisterWritten : Obligations.OnlyDestinationRegisterWritten := by
  intro i s t h r hr
  have hne : ∀ {d}, i.dest = some d → r ≠ d := fun hd hrd => hr (hrd ▸ hd)
  cases exec_shape h with
  | result dr v _ hd => simp [hne hd]
  | link a _ hd => simp [hne hd]
  | input c rest cs _ _ hd => simp [hne hd]
  | _ => rfl

/-- Settles O34: a flag-affecting instruction ends in the updater, and any other leaves COND as it was. -/
theorem exactlyOneFlagForEver : Obligations.ExactlyOneFlagForEver := by
  intro i s t h hbefore
  cases hf : i.flagDest with
  | none =>
    rw [exec_cond_of_flagDest_none h hf]
    exact hbefore.resolve_left (· hf)
  | some dr =>
    rw [exec_cond_of_flagDest h hf]
    exact ccOf_one_flag _

/-! ### The pc -/

/-- Settles O37: every shape but the jumps and the held one keeps the increment that its meaning begins with. -/
theorem onlyControlTransfersMovePc : Obligations.OnlyControlTransfersMovePc := by
  intro i s t hc hin h
  cases exec_shape h with
  | held hi hs => exact absurd hs (hin hi)
  | jump a hc' => cases hc.symm.trans hc'
  | link a hc' => cases hc.symm.trans hc'
  | _ => rfl

/-! ### The console -/

theorem exec_conout {i : Instr} {s t : State} (h : exec i s = .next t) :
    ∃ cs, t.conout = s.conout ++ cs ∧ (i.prints = false → cs = []) := by
  cases exec_shape h with
  | print cs hp => exact ⟨cs, rfl, fun hp' => nomatch hp.symm.trans hp'⟩
  | halt hh => exact ⟨Config.haltNotice, rfl, fun hp => by cases hh; cases hp⟩
  | input c rest cs _ _ _ _ _ _ hp => exact ⟨cs, rfl, hp⟩
  | _ => exact ⟨[], (List.append_nil _).symm, fun _ => rfl⟩

theorem exec_conin {i : Instr} {s t : State} (h : exec i s = .next t) :
    t.conin = if i.readsInput then s.conin.tail else s.conin := by
  cases exec_shape h with
  | held hi hs => simp [hs]
  | input c rest cs hs hi => simp [hi, hs]
  | halt hh => cases hh; rfl
  | _ => simp [‹i.readsInput = false›]

/-- Settles O38: the two streams, one lemma each. -/
theorem consoleStreamsFrame : Obligations.ConsoleStreamsFrame := by
  intro i s t h
  obtain ⟨cs, hout, hquiet⟩ := exec_conout h
  have hin := exec_conin h
  refine ⟨⟨cs, hout⟩, fun hp => ?_, fun hi => ?_, fun hi => ?_⟩
  · rw [hout, hquiet hp, List.append_nil]
  · rwa [hi] at hin
  · rwa [hi] at hin

end Sys2Proof.Proofs
end

section
/-! What an instruction does not read: CONIN but for GETC and IN, memory but for the loads, the stores, PUTS and PUTSP (spec
44_trap.md section 3, 20_memory.md section 3). -/

namespace Sys2Proof.Proofs

open Sys2Proof.Machine

/-- Settles O39: no other meaning looks at CONIN; BR, PUTS and PUTSP branch on flags and memory, which are the same. -/
theorem inputIndependence : Obligations.InputIndependence := by
  intro i s t cs hi h
  cases i
  case getc | inTrap => cases hi
  case br n z p offset9 =>
    by_cases ht : s.taken n z p = true
    · cases (exec_br_of_taken offset9 ht).symm.trans h
      exact exec_br_of_taken (s := s.setConin cs) offset9 ht
    · cases (exec_br_of_not_taken offset9 ht).symm.trans h
      exact exec_br_of_not_taken (s := s.setConin cs) offset9 ht
  case puts =>
    cases hs : s.stringAt (s.reg 0#3) with
    | none => cases (execPuts_of_none hs).symm.trans h
    | some ws =>
      cases (execPuts_of_some hs).symm.trans h
      exact execPuts_of_some (s := s.setConin cs) hs
  case putsp =>
    cases hs : s.stringAt (s.reg 0#3) with
    | none => cases (execPutsp_of_none hs).symm.trans h
    | some ws =>
      cases (execPutsp_of_some hs).symm.trans h
      exact execPutsp_of_some (s := s.setConin cs) hs
  -- Every other instruction has one next state, whose fields but CONIN are computed without CONIN.
  all_goals
    cases h
    rfl

/-- The state with memory `m` and everything else as it is. -/
def withMem (s : State) (m : Memory) : State := { s with mem := m }

/-- Settles O40: no other meaning looks at memory; BR, GETC and IN branch on flags and CONIN, which are the same. -/
theorem memoryIndependence : Obligations.MemoryIndependence := by
  intro i s t m hi h
  change exec i (withMem s m) = .next (withMem t m)
  cases i
  case br n z p offset9 =>
    by_cases ht : s.taken n z p = true
    · cases (exec_br_of_taken offset9 ht).symm.trans h
      exact exec_br_of_taken (s := withMem s m) offset9 ht
    · cases (exec_br_of_not_taken offset9 ht).symm.trans h
      exact exec_br_of_not_taken (s := withMem s m) offset9 ht
  case getc =>
    cases hs : s.conin with
    | nil =>
      cases (execGetc_of_nil hs).symm.trans h
      exact execGetc_of_nil (s := withMem s m) hs
    | cons c rest =>
      cases (execGetc_of_cons hs).symm.trans h
      exact execGetc_of_cons (s := withMem s m) hs
  case inTrap =>
    cases hs : s.conin with
    | nil =>
      cases (execInTrap_of_nil hs).symm.trans h
      exact execInTrap_of_nil (s := withMem s m) hs
    | cons c rest =>
      cases (execInTrap_of_cons hs).symm.trans h
      exact execInTrap_of_cons (s := withMem s m) hs
  case ld | ldi | ldr | st | sti | str | puts | putsp => cases hi
  -- Every other instruction has one next state, whose fields but memory are computed without memory.
  all_goals
    cases h
    rfl

end Sys2Proof.Proofs
end

section
/-! The other traps (spec 44_trap.md): GETC and IN, held or reading a character; PUTSP; when PUTS and PUTSP end; TRAP with an
unrecognised vector. -/

namespace Sys2Proof.Proofs

open Sys2Proof.Machine

/-! ### GETC and IN (R136, R139): a character is read, or nothing changes (40_instruction_cycle.md R99) -/

/-- The state after a trap that prints `cs` and reads `c`, with `rest` left in CONIN. -/
def charRead (cs : List Byte) (c : Byte) (rest : List Byte) (s : State) : State :=
  ((s.advance.emit cs).setConin rest).setReg 0#3 (zext8 c)

theorem charRead_toNat (cs : List Byte) (c : Byte) (rest : List Byte) (s : State) :
    ((charRead cs c rest s).reg 0#3).toNat = c.toNat := by
  rw [charRead, State.setReg_reg, if_pos rfl, zext8, BitVec.toNat_setWidth_of_le (by decide)]

theorem charRead_sameRegsBut (cs : List Byte) (c : Byte) (rest : List Byte) (s : State) :
    sameRegsBut 0#3 s (charRead cs c rest s) := by
  intro r hr
  rw [charRead, State.setReg_reg, if_neg hr]
  rfl

theorem exec_getc_of_cons {s : State} {c : Byte} {rest : List Byte} (h : s.conin = c :: rest) :
    exec .getc s = .next (charRead [] c rest s) := by
  rw [charRead, State.emit_nil]
  exact execGetc_of_cons h

theorem exec_inTrap_of_cons {s : State} {c : Byte} {rest : List Byte} (h : s.conin = c :: rest) :
    exec .inTrap s = .next (charRead (Config.prompt ++ [c]) c rest s) := by
  rw [charRead, State.emit_append, ← State.setConin_emit]
  exact execInTrap_of_cons h

theorem exec_readsInput_of_cons {i : Instr} {s : State} {c : Byte} {rest : List Byte} (hi : i.readsInput = true)
    (h : s.conin = c :: rest) : ∃ cs, exec i s = .next (charRead cs c rest s) := by
  cases i
  case getc => exact ⟨_, exec_getc_of_cons h⟩
  case inTrap => exact ⟨_, exec_inTrap_of_cons h⟩
  all_goals cases hi

theorem exec_readsInput_of_nil {i : Instr} {s : State} (hi : i.readsInput = true) (h : s.conin = []) :
    exec i s = .next s := by
  cases i
  case getc => exact execGetc_of_nil h
  case inTrap => exact execInTrap_of_nil h
  all_goals cases hi

/-- Settles O22: GETC prints nothing and reads. -/
theorem getcReadsCharacter : Obligations.GetcReadsCharacter :=
  fun c rest s h => ⟨_, exec_getc_of_cons h, charRead_toNat _ c rest s, rfl, List.append_nil _, rfl,
    charRead_sameRegsBut _ c rest s, rfl, rfl, fun _ => rfl⟩

/-- Settles O25: IN prints the prompt and the echo, and reads. -/
theorem inPromptsReadsEchoes : Obligations.InPromptsReadsEchoes :=
  fun c rest s h => ⟨_, exec_inTrap_of_cons h, (List.append_assoc _ _ _).symm, charRead_toNat _ c rest s, rfl, rfl,
    charRead_sameRegsBut _ c rest s, rfl, rfl, fun _ => rfl⟩

/-- Settles O30: supplied characters are CONIN's first, and the word fetched is the same. -/
theorem heldUntilInputArrives : Obligations.HeldUntilInputArrives := by
  rintro s ⟨hrun, hi, hnil⟩
  refine ⟨(step_running hrun).trans (exec_readsInput_of_nil hi hnil), fun c cs => ?_⟩
  have hcons : (s.supplyInput (c :: cs)).conin = c :: cs := by rw [State.supplyInput_conin, hnil, List.nil_append]
  obtain ⟨out, hexec⟩ := exec_readsInput_of_cons hi hcons
  exact ⟨_, (step_running (s := s.supplyInput (c :: cs)) hrun).trans hexec, rfl, charRead_toNat out c cs _, rfl⟩

/-! ### PUTSP (R140) -/

theorem packedChars_eq (w : Word) :
    packedChars w = w.extractLsb' 0 8 :: [w.extractLsb' 8 8].filter (· ≠ 0x00#8) := by
  rw [packedChars, lowByte, highByte]
  split
  next h => simp [h]
  next h => simp [h]

theorem exec_putsp_of_some {s : State} {ws : List Word} (h : s.stringAt (s.reg 0#3) = some ws) :
    exec .putsp s = .next (s.advance.emit (ws.flatMap packedChars)) :=
  execPutsp_of_some h

/-- Settles O26: the scan finds the words before the first zero word, and PUTSP prints the characters packed in them. -/
theorem putspPrintsPackedBytes : Obligations.PutspPrintsPackedBytes := by
  intro s k hk hne hz
  refine ⟨_, exec_putsp_of_some (State.stringAt_eq_range hk hne hz), ?_⟩
  simp only [← packedChars_eq, List.flatMap_map]
  exact printed_emit _ s

/-! ### When PUTS and PUTSP do not end (R147) -/

theorem exec_eq_endlessString_iff {i : Instr} (hi : i.printsString = true) (s : State) :
    exec i s = .fault .endlessString ↔ s.noZeroWord := by
  rw [State.noZeroWord, ← State.stringAt_eq_none s (s.reg 0#3)]
  cases hs : s.stringAt (s.reg 0#3) with
  | none =>
    refine iff_of_true ?_ rfl
    cases i
    case puts => exact execPuts_of_none hs
    case putsp => exact execPutsp_of_none hs
    all_goals cases hi
  | some ws =>
    refine iff_of_false (fun h => ?_) nofun
    cases i
    case puts => cases (exec_puts_of_some hs).symm.trans h
    case putsp => cases (exec_putsp_of_some hs).symm.trans h
    all_goals cases hi

/-- Settles O29: the scan, which looks at every word of memory, has no end. -/
theorem stringTrapHangsIffNoZeroWord : Obligations.StringTrapHangsIffNoZeroWord :=
  fun s => ⟨exec_eq_endlessString_iff rfl s, exec_eq_endlessString_iff rfl s⟩

/-! ### TRAP with an unrecognised vector (R142) -/

theorem exec_trapOther (v : Byte) (s : State) : exec (.trapOther v) s = .next s.advance := rfl

/-- Settles O28: the frame of the pc's increment, whatever the vector. -/
theorem otherTrapIsNoOp : Obligations.OtherTrapIsNoOp :=
  fun v s => ⟨_, exec_trapOther v s, onlyPcAdvanced_advance s⟩

end Sys2Proof.Proofs
end

section
/-! The instruction cycle (spec 40_instruction_cycle.md): which instruction a step runs, the outcomes of a step, and the end of a
run. -/

namespace Sys2Proof.Proofs

open Sys2Proof.Machine

/-! ### Which instruction a step runs -/

/-- Settles O41: the fetch reads the word at pc. -/
theorem stepRunsDecodedInstruction : Obligations.StepRunsDecodedInstruction := by
  rintro s i hrun rfl
  exact step_running hrun

/-- A 16-bit word is its own instruction word. -/
theorem tableWord_toNat (w : Word) : tableWord 16 w.toNat = w := by
  rw [tableWord, Nat.mod_eq_of_lt w.isLt, BitVec.ofNat_toNat, BitVec.setWidth_eq]

theorem fetch_withFetchWord (s : State) (w : Word) : (s.withFetchWord 16 w.toNat).fetch = w :=
  (Memory.read_write s.mem s.pc s.pc _).trans ((if_pos rfl).trans (tableWord_toNat w))

/-- Settles O42: the placed word is the one fetched, and the machine runs. -/
theorem placedWordRunsNext : Obligations.PlacedWordRunsNext := by
  refine fun s w => ⟨?_, ?_⟩
  · rw [step_running rfl, fetch_withFetchWord]
  · rw [decodeTableWord, if_pos (Nat.le_refl 16), tableWord_toNat]

/-! ### The outcomes of an instruction and of a step (R98) -/

/-- GETC and IN have a next state whether they are held or not, PUTS and PUTSP when the scan ends, the others always. -/
theorem exec_exists_next {i : Instr} {s : State} (h : ¬ (i.printsString = true ∧ s.noZeroWord)) :
    ∃ t, exec i s = .next t := by
  have hstring : i.printsString = true → ∃ ws, s.stringAt (s.reg 0#3) = some ws := fun hi =>
    Option.ne_none_iff_exists'.1 fun hs => h ⟨hi, (State.stringAt_eq_none s _).1 hs⟩
  cases i
  case br n z p offset9 =>
    obtain ⟨t, ht, -⟩ := exec_br_pc n z p offset9 s
    exact ⟨t, ht⟩
  case puts =>
    obtain ⟨ws, hs⟩ := hstring rfl
    exact ⟨_, exec_puts_of_some hs⟩
  case putsp =>
    obtain ⟨ws, hs⟩ := hstring rfl
    exact ⟨_, exec_putsp_of_some hs⟩
  case getc =>
    cases hs : s.conin with
    | nil => exact ⟨_, exec_readsInput_of_nil rfl hs⟩
    | cons c rest => exact ⟨_, exec_getc_of_cons hs⟩
  case inTrap =>
    cases hs : s.conin with
    | nil => exact ⟨_, exec_readsInput_of_nil rfl hs⟩
    | cons c rest => exact ⟨_, exec_inTrap_of_cons hs⟩
  all_goals exact ⟨_, rfl⟩

/-- Settles O43: the next state in every case but the hang, and the hang. -/
theorem everyInstructionCompletesOrHangs : Obligations.EveryInstructionCompletesOrHangs :=
  fun _ s => ⟨exec_exists_next, fun hi hz => (exec_eq_endlessString_iff hi s).2 hz⟩

/-- Settles O44: a running machine's step is the fetched instruction's. -/
theorem stepOutcomes : Obligations.StepOutcomes := by
  refine fun s => ⟨step_halted, ?_, fun hrun hhangs => ?_⟩
  · rintro ⟨hrun, hi, hz⟩
    exact (step_running hrun).trans ((exec_eq_endlessString_iff hi s).2 hz)
  · rw [step_running hrun]
    exact exec_exists_next fun ⟨hi, hz⟩ => hhangs ⟨hrun, hi, hz⟩

/-! ### The end of a run (R97; 70_reset_and_hazards.md R198) -/

theorem exec_run_eq_false_iff {i : Instr} {s t : State} (hrun : s.run = true) (h : exec i s = .next t) :
    t.run = false ↔ i = .halt := by
  by_cases hi : i = .halt
  · subst hi
    cases (exec_halt s).symm.trans h
    exact iff_of_true rfl rfl
  · rw [exec_run_of_ne_halt hi h, hrun]
    exact iff_of_false nofun hi

/-- Settles O45: HALT alone makes run 0, and a machine with run 0 has no step. -/
theorem runEndsOnlyByHalt : Obligations.RunEndsOnlyByHalt := by
  intro s t hstep
  obtain ⟨hrun, h⟩ := step_eq_next hstep
  have hiff := exec_run_eq_false_iff hrun h
  exact ⟨hiff, fun hi => step_halted (hiff.2 hi)⟩

/-! ### A store and the next fetch (20_memory.md section 5) -/

/-- A running machine at ST makes the store, and the address counts from the incremented pc. -/
theorem step_st {s : State} {sr : RegIdx} {offset9 : BitVec 9} (hrun : s.run = true) (hi : s.nextInstr = .st sr offset9) :
    step s = .next (s.advance.store (s.pc + 1#16 + sext offset9) (s.reg sr)) := by
  rw [step_running hrun]
  exact (congrArg (exec · s) hi).trans (exec_st sr offset9 s)

/-- Settles O46: offset 0 is the next word, offset -1 the ST's own; a store leaves the registers and the incremented pc alone. -/
theorem storeThenFetch : Obligations.StoreThenFetch := by
  refine ⟨fun s sr hrun hi => ⟨_, step_st hrun hi, ?_⟩,
    fun s sr hrun hi => ⟨_, step_st hrun hi, ?_, rfl, fun _ => rfl⟩⟩
  · have hnext : s.pc + 1#16 + sext 0#9 = s.pc + 1#16 := BitVec.add_zero _
    rw [hnext, step_running (s := s.advance.store _ _) hrun]
    simp [State.fetch]
  · have hown : s.pc + 1#16 + sext 0x1FF#9 = s.pc := by
      rw [BitVec.add_assoc, show 1#16 + sext 0x1FF#9 = 0#16 from rfl, BitVec.add_zero]
    simp [hown]

/-! ### A load after a store -/

/-- Settles O47: the store leaves the base alone, so the load reads the word that was stored. -/
theorem loadAfterStore : Obligations.LoadAfterStore := by
  intro s t sr dr baseR offset6 h
  cases (exec_str sr baseR offset6 s).symm.trans h
  refine ⟨_, exec_ldr dr baseR offset6 _, ?_⟩
  simp

end Sys2Proof.Proofs
end

section
/-! Reset and the image loader (spec 70_reset_and_hazards.md sections 1 and 2). -/

namespace Sys2Proof.Proofs

open Sys2Proof.Machine

/-- Settles O48: reset's fields by definition; a launch and a reset again take all but memory and CONIN from it. -/
theorem resetState : Obligations.ResetState :=
  ⟨State.reset_reg, rfl, rfl, rfl, rfl, rfl, Memory.read_nil, fun _ => ⟨rfl, fun _ => rfl, rfl, rfl, rfl⟩,
    fun _ => ⟨fun _ => rfl, rfl, rfl, rfl, rfl, fun _ => rfl, rfl⟩⟩

/-- What the loader leaves at address `b`: content word `b - a`, if both its bytes are there, else what was there before (R188,
R190). -/
theorem find?_loadWords (m : Memory) (a : Nat) (bytes : List Byte) {b : Nat} (hb : b < 65536) :
    (loadWords m a bytes).find? b =
      if a ≤ b ∧ 2 * (b - a) + 1 < bytes.length then
        some (imageWord (bytes.getD (2 * (b - a)) 0#8) (bytes.getD (2 * (b - a) + 1) 0#8))
      else m.find? b := by
  induction m, a, bytes using loadWords.induct with
  | case1 m a first second rest ha ih =>
    rw [loadWords, if_pos ha, ih, Memory.find?_insert]
    rcases Nat.lt_trichotomy b a with hlt | rfl | hgt
    · simp [Nat.not_le.2 hlt, Nat.not_le.2 (Nat.lt_succ_of_lt hlt), Nat.ne_of_lt hlt]
    · simp
    · obtain ⟨d, rfl⟩ := Nat.exists_eq_add_of_lt hgt
      have hnext : a + d + 1 - (a + 1) = d := by omega
      have hhere : 2 * (a + d + 1 - a) = 2 * d + 2 := by omega
      have hle : a + 1 ≤ a + d + 1 ∧ a ≤ a + d + 1 := by omega
      have hne : a + d + 1 ≠ a := by omega
      have hlen : 2 * d + 2 + 1 < rest.length + 1 + 1 ↔ 2 * d + 1 < rest.length := by omega
      simp only [hnext, hhere, hle, true_and, hne, if_false, List.length_cons, List.getD_cons_succ, hlen]
  | case2 m a first second rest ha =>
    have hab : ¬ a ≤ b := by omega
    rw [loadWords, if_neg ha, if_neg fun h => hab h.1]
  | case3 m a byte => simp [loadWords]
  | case4 m a => simp [loadWords]

/-- Settles O49: an image's content is loaded from the origin word's number on, and a joined word has its first byte high. -/
theorem loaderContract : Obligations.LoaderContract := by
  rintro m b0 b1 content a origin k horigin rfl
  have horg : (imageWord b0 b1).toNat = origin := (joinBytes_toNat b0 b1).trans horigin.symm
  have hfind := find?_loadWords m origin content a.isLt
  rw [loadImage, horg, Memory.read, hfind]
  refine ⟨fun h => ?_, fun h => ?_⟩
  · rw [if_pos h]
    exact joinBytes_toNat _ _
  · rw [if_neg h]
    rfl

end Sys2Proof.Proofs
end
